-- ==== Sys2Proof/Word.lean ====
section
/-! DEFINITION. The value types of the machine: the spec's `u8`, `u12`, `u16` (00_scope.md R7), the
4-bit instruction field and the index of a general register (10_state.md R20). -/

namespace Sys2Proof

/-- `u8`: a general register, a timer, a byte of memory (R7). -/
abbrev Byte := BitVec 8

/-- `u16`: `PC`, `I`, a stack entry, an instruction word (R7, R60). -/
abbrev Word := BitVec 16

/-- `u12`: the `addr` field of an instruction (R61). -/
abbrev Addr := BitVec 12

/-- A 4-bit field of an instruction word (R61). -/
abbrev Nibble := BitVec 4

/-- The index of a general register, `0` to `15` (R20). -/
abbrev Reg := Fin 16

/-- `VF`, register 15, also the flag register (R21). -/
abbrev VF : Reg := 15

end Sys2Proof
end

