-- ==== Sys2Proof/Config.lean ====
section
/-! DEFINITION. The implementation parameters of 00_scope.md R6, as types, and the one free value of the
machine, the random byte. The VALUES this hardware takes stand in Machine/Params.lean. -/

namespace Sys2Proof

/-- `P_SHIFT_SOURCE` (R6, R90, R92): which register the shifts read. -/
inductive ShiftSource where
  | x
  | y
  deriving DecidableEq, Repr

/-- `P_FX1E_OVERFLOW_FLAG` (R6, R139): whether `Fx1E` writes `VF` at all. -/
inductive OverflowFlag where
  | set
  | off
  deriving DecidableEq, Repr

/-- `P_FX1E_NO_OVERFLOW_VF` (R6, R139): what `VF` becomes when `Fx1E` does not overflow. -/
inductive NoOverflowVf where
  | unchanged
  | clear
  deriving DecidableEq, Repr

/-- `P_TRANSFER_POLICY` (R6, R131): what a failed range check of `Fx55` and `Fx65` does. -/
inductive TransferPolicy where
  | reject
  | warn
  deriving DecidableEq, Repr

/-- `P_JUMP_OFFSET_REG` (R6, R110): which register `Bnnn` adds. -/
inductive JumpOffsetReg where
  | v0
  | vx
  deriving DecidableEq, Repr

/-- `P_ALU_READ_ORDER` (R6, R80): whether a result re-reads its operands after the flag is written. -/
inductive AluReadOrder where
  | snapshot
  | sequential
  deriving DecidableEq, Repr

/-- `P_DECODE_5_9_N` (R6, R63): what the low nibble of classes 5 and 9 does. -/
inductive Decode59 where
  | ignore
  | unknown
  deriving DecidableEq, Repr

/-- The parameters of R6, all but the `RandomByte` oracle: fixed for a whole run. -/
structure Params where
  /-- `P_STACK_CAPACITY`, at least 16. -/
  stackCapacity : Nat
  shiftSource   : ShiftSource
  overflowFlag  : OverflowFlag
  noOverflowVf  : NoOverflowVf
  transfer      : TransferPolicy
  jumpOffset    : JumpOffsetReg
  readOrder     : AluReadOrder
  decode59      : Decode59
  /-- `P_FONT`, 80 bytes. -/
  font          : Vector Byte 80
  deriving DecidableEq, Repr

/-- The legal parameter values of R6: `P_STACK_CAPACITY` is a natural number of at least 16. -/
abbrev Params.legal (p : Params) : Prop := 16 ≤ p.stackCapacity

/-- FREE VALUE, the `RandomByte` oracle of R6 and R93: the byte of the `k`-th draw, any 8-bit value.
It has no body, so no proof can see a value of it (notes/assumptions/3.md). -/
opaque Config.randomByte (k : Nat) : Byte

end Sys2Proof
end

