-- ==== Sys2Proof/Machine/Params.lean ====
section
/-! DEFINITION. The parameter values this hardware takes: the defaults of 00_scope.md R6, and the default
font of 20_memory.md R42. -/

namespace Sys2Proof.Machine

/-- The default `P_FONT` (R42): glyphs 0 to F, five bytes each, top row first. -/
def hardwareFont : Vector Byte 80 := #v[
  0xF0, 0x90, 0x90, 0x90, 0xF0,   0x20, 0x60, 0x20, 0x20, 0x70,
  0xF0, 0x10, 0xF0, 0x80, 0xF0,   0xF0, 0x10, 0xF0, 0x10, 0xF0,
  0x90, 0x90, 0xF0, 0x10, 0x10,   0xF0, 0x80, 0xF0, 0x10, 0xF0,
  0xF0, 0x80, 0xF0, 0x90, 0xF0,   0xF0, 0x10, 0x20, 0x40, 0x40,
  0xF0, 0x90, 0xF0, 0x90, 0xF0,   0xF0, 0x90, 0xF0, 0x10, 0xF0,
  0xF0, 0x90, 0xF0, 0x90, 0x90,   0xE0, 0x90, 0xE0, 0x90, 0xE0,
  0xF0, 0x80, 0x80, 0x80, 0xF0,   0xE0, 0x90, 0x90, 0x90, 0xE0,
  0xF0, 0x80, 0xF0, 0x80, 0xF0,   0xF0, 0x80, 0xF0, 0x80, 0x80]

/-- The defaults of R6, "the value this hardware takes". -/
def hardwareParams : Params where
  stackCapacity := 16
  shiftSource   := .x
  overflowFlag  := .set
  noOverflowVf  := .unchanged
  transfer      := .reject
  jumpOffset    := .v0
  readOrder     := .snapshot
  decode59      := .ignore
  font          := hardwareFont

end Sys2Proof.Machine
end

