-- ==== Sys2Proof/Syntax.lean ====
section
/-! DEFINITION. The instructions: one constructor per row of spec/opcode_table.json (30_encoding.md R64). -/

namespace Sys2Proof

/-- The 35 instructions of R64, with the fields their pattern names (R61, R62). -/
inductive Instr where
  /-- `00E0`, CLS (R101). -/
  | cls
  /-- `00EE`, RET (R102). -/
  | ret
  /-- `0nnn` other than `00E0` and `00EE`, SYS addr (R103). -/
  | sys (addr : Addr)
  /-- `1nnn`, JP addr (R104). -/
  | jp (addr : Addr)
  /-- `2nnn`, CALL addr (R105). -/
  | call (addr : Addr)
  /-- `3xkk`, SE Vx, byte (R106). -/
  | seByte (x : Reg) (kk : Byte)
  /-- `4xkk`, SNE Vx, byte (R107). -/
  | sneByte (x : Reg) (kk : Byte)
  /-- `5xy0`, SE Vx, Vy (R108). -/
  | seReg (x y : Reg)
  /-- `6xkk`, LD Vx, byte (R82). -/
  | ldByte (x : Reg) (kk : Byte)
  /-- `7xkk`, ADD Vx, byte (R83). -/
  | addByte (x : Reg) (kk : Byte)
  /-- `8xy0`, LD Vx, Vy (R84). -/
  | ldReg (x y : Reg)
  /-- `8xy1`, OR Vx, Vy (R85). -/
  | orReg (x y : Reg)
  /-- `8xy2`, AND Vx, Vy (R86). -/
  | andReg (x y : Reg)
  /-- `8xy3`, XOR Vx, Vy (R87). -/
  | xorReg (x y : Reg)
  /-- `8xy4`, ADD Vx, Vy (R88). -/
  | addReg (x y : Reg)
  /-- `8xy5`, SUB Vx, Vy (R89). -/
  | sub (x y : Reg)
  /-- `8xy6`, SHR Vx, Vy (R90). -/
  | shr (x y : Reg)
  /-- `8xy7`, SUBN Vx, Vy (R91). -/
  | subn (x y : Reg)
  /-- `8xyE`, SHL Vx, Vy (R92). -/
  | shl (x y : Reg)
  /-- `9xy0`, SNE Vx, Vy (R109). -/
  | sneReg (x y : Reg)
  /-- `Annn`, LD I, addr (R132). -/
  | ldI (addr : Addr)
  /-- `Bnnn`, JP V0, addr (R110). -/
  | jpV0 (addr : Addr)
  /-- `Cxkk`, RND Vx, byte (R93). -/
  | rnd (x : Reg) (kk : Byte)
  /-- `Dxyn`, DRW Vx, Vy, nibble (R121). -/
  | drw (x y : Reg) (n : Nibble)
  /-- `Ex9E`, SKP Vx (R133). -/
  | skp (x : Reg)
  /-- `ExA1`, SKNP Vx (R134). -/
  | sknp (x : Reg)
  /-- `Fx07`, LD Vx, DT (R135). -/
  | ldVxDt (x : Reg)
  /-- `Fx0A`, LD Vx, K (R136). -/
  | ldVxK (x : Reg)
  /-- `Fx15`, LD DT, Vx (R137). -/
  | ldDtVx (x : Reg)
  /-- `Fx18`, LD ST, Vx (R138). -/
  | ldStVx (x : Reg)
  /-- `Fx1E`, ADD I, Vx (R139). -/
  | addI (x : Reg)
  /-- `Fx29`, LD F, Vx (R140). -/
  | ldF (x : Reg)
  /-- `Fx33`, LD B, Vx (R141). -/
  | ldB (x : Reg)
  /-- `Fx55`, LD [I], Vx: store `V0` to `Vx` (R142). -/
  | stRegs (x : Reg)
  /-- `Fx65`, LD Vx, [I]: load `V0` to `Vx` (R143). -/
  | ldRegs (x : Reg)
  deriving DecidableEq, Repr

end Sys2Proof
end

