-- ==== Sys2Proof/Decode.lean ====
section
/-! DEFINITION. The decoder (30_encoding.md R60 to R68), total on any word and any bytes, and the encoder
written from the same patterns. -/

namespace Sys2Proof

/-- Why no instruction is read. -/
inductive DecodeError where
  /-- The word matches no row of R64: one of the unknown words of R65. -/
  | unknownInstruction (op : Word)
  /-- Fewer than the two bytes of an instruction word were given (R60). -/
  | truncated (got : Nat)
  deriving DecidableEq, Repr

/-! ## Fields (R61) -/

/-- `op[15:12]`, the primary dispatch key. -/
def opClass (op : Word) : Nibble := op.extractLsb' 12 4

/-- `addr`, `op[11:0]`. -/
def fieldAddr (op : Word) : Addr := op.extractLsb' 0 12

/-- A 4-bit field read as a register index (R62). -/
def regOfNibble (n : Nibble) : Reg := ⟨n.toNat, n.isLt⟩

/-- `x`, `op[11:8]`. -/
def fieldX (op : Word) : Reg := regOfNibble (op.extractLsb' 8 4)

/-- `y`, `op[7:4]`. -/
def fieldY (op : Word) : Reg := regOfNibble (op.extractLsb' 4 4)

/-- `n`, `op[3:0]`. -/
def fieldN (op : Word) : Nibble := op.extractLsb' 0 4

/-- `nn` (`kk` in the patterns), `op[7:0]`. -/
def fieldNN (op : Word) : Byte := op.extractLsb' 0 8

/-- `op = b0 ++ b1`, big-endian (R60). -/
def wordOfBytes (b0 b1 : Byte) : Word := b0 ++ b1

/-! ## Decoding (R63 to R66) -/

/-- Class 0 is decoded on the whole `addr` (R63, 90_conflicts.md C1). -/
def decodeClass0 (op : Word) : Instr :=
  match (fieldAddr op).toNat with
  | 0x0E0 => .cls
  | 0x0EE => .ret
  | _ => .sys (fieldAddr op)

/-- Class 8 is decoded on `n` (R63). -/
def decodeClass8 (op : Word) : Except DecodeError Instr :=
  match (fieldN op).toNat with
  | 0x0 => .ok (.ldReg (fieldX op) (fieldY op))
  | 0x1 => .ok (.orReg (fieldX op) (fieldY op))
  | 0x2 => .ok (.andReg (fieldX op) (fieldY op))
  | 0x3 => .ok (.xorReg (fieldX op) (fieldY op))
  | 0x4 => .ok (.addReg (fieldX op) (fieldY op))
  | 0x5 => .ok (.sub (fieldX op) (fieldY op))
  | 0x6 => .ok (.shr (fieldX op) (fieldY op))
  | 0x7 => .ok (.subn (fieldX op) (fieldY op))
  | 0xE => .ok (.shl (fieldX op) (fieldY op))
  | _ => .error (.unknownInstruction op)

/-- Classes 5 and 9 are decoded by `P_DECODE_5_9_N` (R63, 90_conflicts.md C8). -/
def decodeClass59 (m : Decode59) (i : Instr) (op : Word) : Except DecodeError Instr :=
  match m with
  | .ignore => .ok i
  | .unknown => if fieldN op = 0 then .ok i else .error (.unknownInstruction op)

/-- Class E is decoded on `nn` (R63). -/
def decodeClassE (op : Word) : Except DecodeError Instr :=
  match (fieldNN op).toNat with
  | 0x9E => .ok (.skp (fieldX op))
  | 0xA1 => .ok (.sknp (fieldX op))
  | _ => .error (.unknownInstruction op)

/-- Class F is decoded on `nn` (R63). -/
def decodeClassF (op : Word) : Except DecodeError Instr :=
  match (fieldNN op).toNat with
  | 0x07 => .ok (.ldVxDt (fieldX op))
  | 0x0A => .ok (.ldVxK (fieldX op))
  | 0x15 => .ok (.ldDtVx (fieldX op))
  | 0x18 => .ok (.ldStVx (fieldX op))
  | 0x1E => .ok (.addI (fieldX op))
  | 0x29 => .ok (.ldF (fieldX op))
  | 0x33 => .ok (.ldB (fieldX op))
  | 0x55 => .ok (.stRegs (fieldX op))
  | 0x65 => .ok (.ldRegs (fieldX op))
  | _ => .error (.unknownInstruction op)

/-- The two-level dispatch of R63 over one instruction word. -/
def decodeWord (m : Decode59) (op : Word) : Except DecodeError Instr :=
  match (opClass op).toNat with
  | 0x0 => .ok (decodeClass0 op)
  | 0x1 => .ok (.jp (fieldAddr op))
  | 0x2 => .ok (.call (fieldAddr op))
  | 0x3 => .ok (.seByte (fieldX op) (fieldNN op))
  | 0x4 => .ok (.sneByte (fieldX op) (fieldNN op))
  | 0x5 => decodeClass59 m (.seReg (fieldX op) (fieldY op)) op
  | 0x6 => .ok (.ldByte (fieldX op) (fieldNN op))
  | 0x7 => .ok (.addByte (fieldX op) (fieldNN op))
  | 0x8 => decodeClass8 op
  | 0x9 => decodeClass59 m (.sneReg (fieldX op) (fieldY op)) op
  | 0xA => .ok (.ldI (fieldAddr op))
  | 0xB => .ok (.jpV0 (fieldAddr op))
  | 0xC => .ok (.rnd (fieldX op) (fieldNN op))
  | 0xD => .ok (.drw (fieldX op) (fieldY op) (fieldN op))
  | 0xE => decodeClassE op
  | _ => decodeClassF op

/-- The instruction that a list of bytes begins with, and the bytes after it: two bytes an
instruction, the high byte first (R60). -/
def decode (m : Decode59) : List Byte → Except DecodeError (Instr × List Byte)
  | b0 :: b1 :: rest => (decodeWord m (wordOfBytes b0 b1)).map (fun i => (i, rest))
  | bytes => .error (.truncated bytes.length)

/-! ## Encoding (R64) -/

/-- A register index as a 4-bit field (R62). -/
def nibbleOfReg (r : Reg) : Nibble := BitVec.ofFin r

/-- The pattern `cnnn`. -/
def wordAddr (c : Nibble) (a : Addr) : Word := c ++ a

/-- The pattern `cxkk`. -/
def wordXKK (c : Nibble) (x : Reg) (kk : Byte) : Word := c ++ nibbleOfReg x ++ kk

/-- The pattern `cxyn`. -/
def wordXYN (c : Nibble) (x y : Reg) (n : Nibble) : Word := c ++ nibbleOfReg x ++ nibbleOfReg y ++ n

/-- The word of an instruction, from the patterns of R64; `5xy0` and `9xy0` with their low nibble 0. -/
def encode : Instr → Word
  | .cls => 0x00E0
  | .ret => 0x00EE
  | .sys addr => wordAddr 0x0 addr
  | .jp addr => wordAddr 0x1 addr
  | .call addr => wordAddr 0x2 addr
  | .seByte x kk => wordXKK 0x3 x kk
  | .sneByte x kk => wordXKK 0x4 x kk
  | .seReg x y => wordXYN 0x5 x y 0x0
  | .ldByte x kk => wordXKK 0x6 x kk
  | .addByte x kk => wordXKK 0x7 x kk
  | .ldReg x y => wordXYN 0x8 x y 0x0
  | .orReg x y => wordXYN 0x8 x y 0x1
  | .andReg x y => wordXYN 0x8 x y 0x2
  | .xorReg x y => wordXYN 0x8 x y 0x3
  | .addReg x y => wordXYN 0x8 x y 0x4
  | .sub x y => wordXYN 0x8 x y 0x5
  | .shr x y => wordXYN 0x8 x y 0x6
  | .subn x y => wordXYN 0x8 x y 0x7
  | .shl x y => wordXYN 0x8 x y 0xE
  | .sneReg x y => wordXYN 0x9 x y 0x0
  | .ldI addr => wordAddr 0xA addr
  | .jpV0 addr => wordAddr 0xB addr
  | .rnd x kk => wordXKK 0xC x kk
  | .drw x y n => wordXYN 0xD x y n
  | .skp x => wordXKK 0xE x 0x9E
  | .sknp x => wordXKK 0xE x 0xA1
  | .ldVxDt x => wordXKK 0xF x 0x07
  | .ldVxK x => wordXKK 0xF x 0x0A
  | .ldDtVx x => wordXKK 0xF x 0x15
  | .ldStVx x => wordXKK 0xF x 0x18
  | .addI x => wordXKK 0xF x 0x1E
  | .ldF x => wordXKK 0xF x 0x29
  | .ldB x => wordXKK 0xF x 0x33
  | .stRegs x => wordXKK 0xF x 0x55
  | .ldRegs x => wordXKK 0xF x 0x65

/-- The high byte of a word, stored at the lower address (R60). -/
def highByte (op : Word) : Byte := op.extractLsb' 8 8

/-- The low byte of a word, stored at the higher address (R60). -/
def lowByte (op : Word) : Byte := op.extractLsb' 0 8

/-- The two bytes of an instruction, as memory holds them (R60). -/
def encodeBytes (i : Instr) : List Byte := [highByte (encode i), lowByte (encode i)]

/-! ## The host's reading of a table word -/

/-- The instruction word of an opcode-table word: its low `nbits` bits, every bit above them 0. -/
def tableWord (nbits w : Nat) : Word := BitVec.ofNat 16 (w % 2 ^ nbits)

/-- What the decoder reads from an opcode-table word, laid out as memory holds it, under this
hardware's parameters. -/
def decodeTableWord (nbits w : Nat) : Option Instr :=
  match decode Machine.hardwareParams.decode59
      [highByte (tableWord nbits w), lowByte (tableWord nbits w)] with
  | .ok (i, _) => some i
  | .error _ => none

end Sys2Proof
end

