-- ==== Sys2Proof/Machine/Framebuffer.lean ====
section
/-! DEFINITION. The 64 x 32 framebuffer (10_state.md R30) and the sprite XOR-blit (43_display.md R120, R121). -/

namespace Sys2Proof.Machine

/-- `FB`: 256 bytes, row-major, 8 pixels a byte, bit 7 the leftmost (R30). -/
abbrev Framebuffer := Vector Byte 256

/-- A column of the display, 0 to 63. -/
abbrev Col := Fin 64

/-- A row of the display, 0 to 31. -/
abbrev Row := Fin 32

/-- The byte a pixel lies in: `row * 8 + (col >> 3)` (R30). -/
def pixelByte (c : Col) (r : Row) : Fin 256 :=
  ⟨r.val * 8 + c.val / 8, by have := r.isLt; have := c.isLt; omega⟩

/-- The bit a pixel is in its byte: `7 - (col & 7)` (R30). -/
def pixelBit (c : Col) : Nat := 7 - c.val % 8

/-- `FB(col, row)` (R30). -/
def pixel (fb : Framebuffer) (c : Col) (r : Row) : Bool := fb[pixelByte c r].getLsbD (pixelBit c)

/-- `FB(col, row) <- FB(col, row) ^ 1` (R30, R121). -/
def togglePixel (fb : Framebuffer) (c : Col) (r : Row) : Framebuffer :=
  fb.set (pixelByte c r) (fb[pixelByte c r] ^^^ (1#8 <<< pixelBit c))

/-- Every byte of the display 0 (R101). -/
def clearFramebuffer : Framebuffer := Vector.replicate 256 0

/-- The column `(V[x] + c) mod 64` (R120). -/
def spriteCol (vx : Byte) (c : Nat) : Col := Fin.ofNat 64 (vx.toNat + c)

/-- The row `(V[y] + r) mod 32` (R120). -/
def spriteRow (vy : Byte) (r : Nat) : Row := Fin.ofNat 32 (vy.toNat + r)

/-- Column offset `c` of a sprite row: bit 7 is the leftmost (R120). -/
def spriteBit (sb : Byte) (c : Nat) : Bool := sb.getLsbD (7 - c)

/-- A display in the middle of a draw: its pixels, and whether a set pixel has been hit (R121). -/
structure Canvas where
  fb        : Framebuffer
  collision : Bool
  deriving DecidableEq, Repr

/-- One set sprite bit XORed onto one pixel (R121). -/
def plot (k : Canvas) (c : Col) (r : Row) : Canvas :=
  { fb := togglePixel k.fb c r, collision := k.collision || pixel k.fb c r }

/-- The columns of `cs` of one sprite row, in order (R121). -/
def drawCols (k : Canvas) (vx : Byte) (row : Row) (sb : Byte) : List Nat → Canvas
  | [] => k
  | c :: cs => drawCols (if spriteBit sb c then plot k (spriteCol vx c) row else k) vx row sb cs

/-- The sprite rows `sbs`, the first of them at row offset `r` (R121). -/
def drawRows (k : Canvas) (vx vy : Byte) (r : Nat) : List Byte → Canvas
  | [] => k
  | sb :: sbs => drawRows (drawCols k vx (spriteRow vy r) sb (List.range 8)) vx vy (r + 1) sbs

/-- The whole sprite drawn at `(vx, vy)`, with no collision yet (R121). -/
def drawSprite (fb : Framebuffer) (vx vy : Byte) (sprite : List Byte) : Canvas :=
  drawRows { fb := fb, collision := false } vx vy 0 sprite

end Sys2Proof.Machine
end

