-- ==== Sys2Proof/Machine/Memory.lean ====
section
/-! DEFINITION. The 4096-byte memory (20_memory.md R40 to R55) as a list of cells in one canonical form:
addresses strictly rising, and no cell that holds what an unlisted address reads as. -/

namespace Sys2Proof.Machine

/-- `MEM`: the bytes that differ from their value at reset. -/
abbrev Memory := List Host.Cell

/-- The size of `MEM` (R40): addresses `0x000` to `0xFFF`. -/
def memorySize : Nat := 0x1000

/-- The base of the font table (R41). -/
def fontBase : Nat := 0x100

/-- Where the program area begins and a ROM is loaded (R41, R171). -/
def programBase : Nat := 0x200

/-- What an unlisted address reads as: its content at reset, the font at `0x100` to `0x14F` and 0 elsewhere
(R32, R41, R42). -/
def resetByte (a : Nat) : Byte :=
  if fontBase ≤ a then hardwareFont.toList.getD (a - fontBase) 0 else 0

/-- The byte at an address. -/
def byteAt : Memory → Nat → Byte
  | [], a => resetByte a
  | (b, w) :: rest, a => if a = b then w else byteAt rest a

/-- A cell in front of a memory whose addresses are all above it, left out where the address reads so anyway. -/
def consCell (a : Nat) (v : Byte) (rest : Memory) : Memory :=
  if v = resetByte a then rest else (a, v) :: rest

/-- `MEM[a] <- v`, keeping the canonical form. -/
def writeByte : Memory → Nat → Byte → Memory
  | [], a, v => consCell a v []
  | (b, w) :: rest, a, v =>
    if a < b then consCell a v ((b, w) :: rest)
    else if a = b then consCell a v rest
    else (b, w) :: writeByte rest a v

/-- The canonical form from an address on. -/
def wfFrom : Nat → Memory → Bool
  | _, [] => true
  | lo, (a, v) :: rest => decide (lo ≤ a) && decide (a < memorySize) && (v != resetByte a) && wfFrom (a + 1) rest

/-- The canonical form: addresses rising and inside the address space, no cell equal to its value at reset. -/
def Memory.wf (m : Memory) : Bool := wfFrom 0 m

/-- The `len` bytes from `base` on, lowest address first. -/
def bytesFrom (m : Memory) (base len : Nat) : List Byte :=
  (List.range len).map (fun k => byteAt m (base + k))

/-- Bytes stored one after the other from `base` on, in rising order (R47). -/
def writeBytes (m : Memory) (base : Nat) : List Byte → Memory
  | [] => m
  | b :: bs => writeBytes (writeByte m base b) (base + 1) bs

/-- `ReadOK(base, len)` (R48), on unbounded naturals. -/
abbrev readOK (base len : Nat) : Prop := base + len ≤ memorySize

/-- `WriteOK(base, len)` (R48), on unbounded naturals. -/
abbrev writeOK (base len : Nat) : Prop := programBase ≤ base ∧ base + len ≤ memorySize

/-- `MemRead` over a range (R43), defined only inside `0x000` to `0xFFF`. -/
def memRead (m : Memory) (base len : Nat) : Option (List Byte) :=
  if base + len ≤ memorySize then some (bytesFrom m base len) else none

/-- `MemWrite` over a range (R44), defined only inside `0x000` to `0xFFF`; all of it or nothing (R49). -/
def memWrite (m : Memory) (base : Nat) (bs : List Byte) : Option Memory :=
  if base + bs.length ≤ memorySize then some (writeBytes m base bs) else none

end Sys2Proof.Machine
end

