-- ==== Sys2Proof/Machine/State.lean ====
section
/-! DEFINITION. The state of the machine: the tuple of 10_state.md R34, the step outcome of R33, and the
model's own two fields (the parameters of R6 and the draw counter). -/

namespace Sys2Proof.Machine

/-- The kinds of diagnostic (60_exceptions.md R151), in the order of their codes 1 to 10. -/
inductive DiagKind where
  | programCounterOutOfRange
  | unknownInstruction
  | legacyMachineCall
  | stackUnderflow
  | stackOverflow
  | spriteOutOfBounds
  | bcdOutOfBounds
  | registerTransferOutOfBounds
  | invalidKeyIndex
  | invalidDigitIndex
  deriving DecidableEq, Repr

/-- The diagnostic record `(kind, opcode, pc)` (R150). -/
structure Diagnostic where
  kind   : DiagKind
  /-- The offending word; none for `ProgramCounterOutOfRange`, which reports before any fetch. -/
  opcode : Option Word
  /-- The address the word was fetched from, or the out-of-range `PC`. -/
  pc     : Word
  deriving DecidableEq, Repr

/-- What a `step()` returns to the host (10_state.md R33). -/
structure StepOutcome where
  diag           : Option Diagnostic
  displayChanged : Bool
  awaitingKey    : Bool
  deriving DecidableEq, Repr

/-- The value of every field of the step outcome at the start of each `step()` (R33). -/
abbrev StepOutcome.none : StepOutcome := ⟨Option.none, false, false⟩

/-- The state. The first ten fields are the tuple of R34. -/
structure State where
  /-- `V0` to `VF` (R20). -/
  v      : Vector Byte 16
  /-- `I` (R22). -/
  i      : Word
  /-- `PC` (R23). -/
  pc     : Word
  /-- `SP`, the depth of the call stack (R25). -/
  sp     : Nat
  /-- `STACK[0]` to `STACK[P_STACK_CAPACITY-1]` (R26). -/
  stack  : List Word
  /-- `DT`, the delay timer (R28). -/
  dt     : Byte
  /-- `ST`, the sound timer (R28). -/
  st     : Byte
  /-- `KEYS`, bit `k` is key `k` pressed (R29). -/
  keys   : Word
  /-- `FB` (R30). -/
  fb     : Framebuffer
  /-- `MEM` (R32). -/
  mem    : Memory
  /-- The model's own: the parameters of R6, which no operation changes. DESIGN CHOICE, safe
  (notes/assumptions/1.md). -/
  params : Params
  /-- The model's own: how many random bytes have been drawn. DESIGN CHOICE, safe (notes/assumptions/3.md). -/
  draws  : Nat
  /-- The outcome of the latest `step()` (R33). DESIGN CHOICE, safe (notes/assumptions/2.md). -/
  out    : StepOutcome
  deriving DecidableEq, Repr

/-- Why the model stops with a fault. The spec has no fault: every diagnostic is non-fatal (R152). Both
constructors stand for an access outside the domain of a primitive, which no reachable state performs. -/
inductive Fault where
  /-- `MemRead` or `MemWrite` at an address above `0xFFF`, outside its domain (R43, R44). Raised by `withBytes`
  and `storeBytes` of Machine/Ops.lean; safe: every caller checks its range first, so no step raises it. -/
  | memoryAddress (addr : Nat)
  /-- `STACK[k]` for a `k` that is no entry of the stack (R26). Raised by `pushThen` and
  `popPc` of Machine/Ops.lean; safe: only in a state that breaks the stack invariant R27, which no run reaches. -/
  | stackEntry (k : Nat)
  deriving DecidableEq, Repr

/-- Why the model gives a step no meaning. -/
inductive Refusal where
  /-- An instruction that has no meaning yet. Raised by no arm of Machine/Dispatch.lean; safe. -/
  | notModelled (mnemonic : String)
  /-- `TransferBeyondMemory`: under `P_TRANSFER_POLICY = WARN`, an `Fx55` or `Fx65` that reaches an address above
  `0xFFF` (44_timers_input_memory.md R131, 93_implementation_defined.md). Raised by Machine/Transfer.lean;
  safe: the spec says the model refuses the step. -/
  | transferBeyondMemory
  deriving DecidableEq, Repr

/-- The three outcomes of a step of this machine. -/
abbrev Result := Host.Outcome State Fault Refusal

/-- The machine right after reset (70_reset_and_hazards.md R170), with this hardware's parameters. -/
def State.reset : State where
  v      := Vector.replicate 16 0
  i      := 0
  pc     := 0x200
  sp     := 0
  stack  := List.replicate hardwareParams.stackCapacity 0
  dt     := 0
  st     := 0
  keys   := 0
  fb     := Vector.replicate 256 0
  mem    := []
  params := hardwareParams
  draws  := 0
  out    := StepOutcome.none

end Sys2Proof.Machine
end

