-- ==== Sys2Proof/Machine/Ops.lean ====
section
/-! DEFINITION. The named operations every meaning is written over: registers, the program counter, the
diagnostics (the block's only exceptional event, 60_exceptions.md R150 to R156), memory and the call stack. -/

namespace Sys2Proof.Machine

/-! ## Registers (R8, R20, R22) -/

/-- `V[r]`. -/
def State.reg (s : State) (r : Reg) : Byte := s.v[r]

/-- `V[r] <- b`. -/
def State.setReg (s : State) (r : Reg) (b : Byte) : State := { s with v := s.v.set r b }

/-- `I <- a`. -/
def State.setI (s : State) (a : Word) : State := { s with i := a }

/-! ## The program counter (R23, R69) -/

/-- `pc <- a`. -/
def State.setPc (s : State) (a : Word) : State := { s with pc := a }

/-- `pc_inst`, from the post-fetch `PC` an instruction starts with (R69). -/
def State.pcInst (s : State) : Word := s.pc - 2

/-- A skip: `pc <- PC + 2` when the condition holds (42_control_flow.md R100). -/
def State.skipIf (s : State) (c : Bool) : State := if c then s.setPc (s.pc + 2) else s

/-! ## Diagnostics (R150, R151)

The block has no trap, no handler and no saved state (R156): what other machines do by taking an exception is
here a record in the step outcome. `raise` ends the instruction, `warn` lets it go on (00_scope.md R8). -/

/-- The code of a kind: its position in the list of R151. -/
def diagCode : DiagKind → Nat
  | .programCounterOutOfRange => 1
  | .unknownInstruction => 2
  | .legacyMachineCall => 3
  | .stackUnderflow => 4
  | .stackOverflow => 5
  | .spriteOutOfBounds => 6
  | .bcdOutOfBounds => 7
  | .registerTransferOutOfBounds => 8
  | .invalidKeyIndex => 9
  | .invalidDigitIndex => 10

/-- `out.diag <- (kind, opcode, pc)`; no architectural state is written (R150). -/
def State.setDiag (s : State) (d : Diagnostic) : State := { s with out := { s.out with diag := some d } }

/-- `warn <kind>` in the instruction `i`: its word, and the address it was fetched from (R150). -/
def warn (k : DiagKind) (i : Instr) (s : State) : State := s.setDiag ⟨k, some (encode i), s.pcInst⟩

/-- `raise <kind>` in the instruction `i`: the report is all the instruction does (R8, R152). -/
def raise (k : DiagKind) (i : Instr) (s : State) : Result := .next (warn k i s)

/-- `out.display_changed <- 1` (R123). -/
def State.notifyDisplay (s : State) : State := { s with out := { s.out with displayChanged := true } }

/-- `out.awaiting_key <- 1` (R136). -/
def State.notifyAwaitingKey (s : State) : State := { s with out := { s.out with awaitingKey := true } }

/-! ## Memory (R43, R44, R49) -/

/-- The `len` bytes from `base` on, given to `k`. -/
def withBytes (s : State) (base len : Nat) (k : List Byte → Result) : Result :=
  match memRead s.mem base len with
  | some bs => k bs
  | none => .fault (.memoryAddress (base + len - 1))

/-- The bytes `bs` stored from `base` on. -/
def storeBytes (s : State) (base : Nat) (bs : List Byte) : Result :=
  match memWrite s.mem base bs with
  | some m => .next { s with mem := m }
  | none => .fault (.memoryAddress (base + bs.length - 1))

/-! ## The call stack (R24 to R27) -/

/-- `STACK[SP] <- a; SP <- SP + 1`, then `k`; the caller has checked that the stack is not full. -/
def pushThen (s : State) (a : Word) (k : State → Result) : Result :=
  if s.sp < s.stack.length then k { s with stack := s.stack.set s.sp a, sp := s.sp + 1 }
  else .fault (.stackEntry s.sp)

/-- `SP <- SP - 1; pc <- STACK[SP]`; the caller has checked that the stack is not empty. The entry keeps its
value (R102). -/
def popPc (s : State) : Result :=
  match s.stack[s.sp - 1]? with
  | some a => .next { s with sp := s.sp - 1, pc := a }
  | none => .fault (.stackEntry (s.sp - 1))

end Sys2Proof.Machine
end

