-- ==== Sys2Proof/Machine/Operands.lean ====
section
/-! DEFINITION. Every operand form the instructions read: the two ALU operands, the shift source, the jump
offset, the tested key, the lowest pressed key and the block of registers of a transfer. -/

namespace Sys2Proof.Machine

/-- The operands `(V[x], V[y])` of the two-operand flag-setting instructions (R88, R89, R91). -/
def aluOperands (x y : Reg) (s : State) : Byte × Byte := (s.reg x, s.reg y)

/-- The register a shift reads: `Vx` under `P_SHIFT_SOURCE = X`, `Vy` under `Y` (R90, R92). -/
def shiftSourceReg (x y : Reg) (s : State) : Reg :=
  match s.params.shiftSource with
  | .x => x
  | .y => y

/-- The shift source twice, in the place of the two operands of R80 (R90, R92). -/
def shiftOperands (x y : Reg) (s : State) : Byte × Byte :=
  (s.reg (shiftSourceReg x y s), s.reg (shiftSourceReg x y s))

/-- The register `Bnnn` adds: `V0`, or `Vx` with `x = op[11:8]`, the top nibble of `addr` (R110). -/
def jumpOffsetRegister (addr : Addr) (s : State) : Reg :=
  match s.params.jumpOffset with
  | .v0 => 0
  | .vx => regOfNibble (addr.extractLsb' 8 4)

/-- The target of `Bnnn`, not masked to 12 bits (R110). -/
def jumpOffsetTarget (addr : Addr) (s : State) : Word :=
  addr.setWidth 16 + (s.reg (jumpOffsetRegister addr s)).setWidth 16

/-- `key <- V[x] mod 16` (44_timers_input_memory.md R130). -/
def keyIndex (v : Byte) : Nat := v.toNat % 16

/-- `KEYS[key]` for the key that `V[x]` names (R130). -/
def keyPressed (x : Reg) (s : State) : Bool := s.keys.getLsbD (keyIndex (s.reg x))

/-- The least `k` of a rising list of key numbers that is pressed, 0 if none is (R136). -/
def leastPressed (keys : Word) : List Nat → Byte
  | [] => 0
  | k :: ks => if keys.getLsbD k then BitVec.ofNat 8 k else leastPressed keys ks

/-- The least `k` in 0..15 with `KEYS[k] = 1` (R136). -/
def lowestKey (keys : Word) : Byte := leastPressed keys (List.range 16)

/-- `V[0]` to `V[x]`, in order (R142). -/
def regsUpTo (x : Reg) (s : State) : List Byte := s.v.toList.take (x.val + 1)

/-- The three decimal digits of a byte, most significant first (R141). -/
def bcdDigits (v : Byte) : List Byte := [v / 100, v / 10 % 10, v % 10]

/-- `I + V[x]` on naturals (R139). -/
def indexSum (x : Reg) (s : State) : Nat := s.i.toNat + (s.reg x).toNat

/-- The address of the glyph of digit `v`: `0x100 + 5 * v` (R42, R140). -/
def glyphAddress (v : Byte) : Word := BitVec.ofNat 16 (fontBase + 5 * v.toNat)

end Sys2Proof.Machine
end

