-- ==== Sys2Proof/Machine/Flags.lean ====
section
/-! DEFINITION. Every flag computation (10_state.md R21): the carry, the absence of borrow, the bit shifted out,
the collision and the index overflow, and the order in which a flag and a result are written (41_alu.md R80). -/

namespace Sys2Proof.Machine

/-- A flag as `VF` holds it: 1 or 0. -/
def flagByte (c : Bool) : Byte := if c then 1 else 0

/-- `8xy4`: 1 iff the unmodded sum exceeds 255 (R88). -/
def carryFlag (a b : Byte) : Byte := flagByte (decide (a.toNat + b.toNat > 255))

/-- `8xy5`: 1 iff `a - b` needs no borrow, `a >= b` (R89). -/
def noBorrowFlag (a b : Byte) : Byte := flagByte (decide (b.toNat ≤ a.toNat))

/-- `8xy7`: 1 iff `b - a` needs no borrow, `b >= a` (R91). -/
def noBorrowReverseFlag (a b : Byte) : Byte := noBorrowFlag b a

/-- `8xy6`: bit 0 of the source (R90). -/
def shiftedOutLow (a _b : Byte) : Byte := flagByte (a.getLsbD 0)

/-- `8xyE`: bit 7 of the source (R92). -/
def shiftedOutHigh (a _b : Byte) : Byte := flagByte (a.getLsbD 7)

/-- `Dxyn`: 1 iff a drawn bit met a set pixel (R121). -/
def collisionFlag (hit : Bool) : Byte := flagByte hit

/-- A flag-setting ALU instruction with operands `rd`, result `f` and flag `g`, in the order of
`P_ALU_READ_ORDER` (R80): the flag is written first, so a destination `VF` ends with the result. -/
def aluFlagged (x : Reg) (rd : State → Byte × Byte) (f g : Byte → Byte → Byte) (s : State) : State :=
  let s1 := s.setReg VF (g (rd s).1 (rd s).2)
  let ops := match s.params.readOrder with
    | .snapshot => rd s
    | .sequential => rd s1
  s1.setReg x (f ops.1 ops.2)

/-- What `Fx1E` does to `VF` (R139): set on overflow past `0xFFF`, and without overflow unchanged or cleared by
`P_FX1E_NO_OVERFLOW_VF`; nothing at all under `P_FX1E_OVERFLOW_FLAG = OFF`. -/
def indexOverflowFlag (overflow : Bool) (s : State) : State :=
  match s.params.overflowFlag, overflow, s.params.noOverflowVf with
  | .set, true, _ => s.setReg VF 1
  | .set, false, .clear => s.setReg VF 0
  | .set, false, .unchanged => s
  | .off, _, _ => s

end Sys2Proof.Machine
end

