-- ==== Sys2Proof/Machine/Alu.lean ====
section
/-! DEFINITION. The meanings of classes 6, 7, 8 and C (41_alu.md). Every meaning runs on the post-fetch state:
`PC` already holds `pc_inst + 2` (30_encoding.md R69). -/

namespace Sys2Proof.Machine

/-- `6xkk` (R82). -/
def execLdByte (x : Reg) (kk : Byte) (s : State) : Result := .next (s.setReg x kk)

/-- `7xkk`, with no flag (R83). -/
def execAddByte (x : Reg) (kk : Byte) (s : State) : Result := .next (s.setReg x (s.reg x + kk))

/-- `8xy0` (R84). -/
def execLdReg (x y : Reg) (s : State) : Result := .next (s.setReg x (s.reg y))

/-- `8xy1`; `VF` is not reset (R85). -/
def execOrReg (x y : Reg) (s : State) : Result := .next (s.setReg x (s.reg x ||| s.reg y))

/-- `8xy2`; `VF` is not reset (R86). -/
def execAndReg (x y : Reg) (s : State) : Result := .next (s.setReg x (s.reg x &&& s.reg y))

/-- `8xy3`; `VF` is not reset (R87). -/
def execXorReg (x y : Reg) (s : State) : Result := .next (s.setReg x (s.reg x ^^^ s.reg y))

/-- `8xy4` (R88). -/
def execAddReg (x y : Reg) (s : State) : Result :=
  .next (aluFlagged x (aluOperands x y) (fun a b => a + b) carryFlag s)

/-- `8xy5` (R89). -/
def execSub (x y : Reg) (s : State) : Result :=
  .next (aluFlagged x (aluOperands x y) (fun a b => a - b) noBorrowFlag s)

/-- `8xy6` (R90). -/
def execShr (x y : Reg) (s : State) : Result :=
  .next (aluFlagged x (shiftOperands x y) (fun a _ => a >>> 1) shiftedOutLow s)

/-- `8xy7` (R91). -/
def execSubn (x y : Reg) (s : State) : Result :=
  .next (aluFlagged x (aluOperands x y) (fun a b => b - a) noBorrowReverseFlag s)

/-- `8xyE` (R92). -/
def execShl (x y : Reg) (s : State) : Result :=
  .next (aluFlagged x (shiftOperands x y) (fun a _ => a <<< 1) shiftedOutHigh s)

/-- `Cxkk`: one fresh draw of `RandomByte`, masked (R93). -/
def execRnd (x : Reg) (kk : Byte) (s : State) : Result :=
  .next { s.setReg x (Config.randomByte s.draws &&& kk) with draws := s.draws + 1 }

end Sys2Proof.Machine
end

