-- ==== Sys2Proof/Machine/Control.lean ====
section
/-! DEFINITION. The meanings of classes 0, 1, 2, 3, 4, 5, 9 and B (42_control_flow.md). Every meaning runs on the
post-fetch state (30_encoding.md R69). -/

namespace Sys2Proof.Machine

/-- `00E0` (R101). -/
def execCls (s : State) : Result := .next { s with fb := clearFramebuffer }.notifyDisplay

/-- `00EE` (R102). -/
def execRet (s : State) : Result := if s.sp = 0 then raise .stackUnderflow .ret s else popPc s

/-- `0nnn` other than `00E0` and `00EE` (R103). -/
def execSys (addr : Addr) (s : State) : Result := .next (warn .legacyMachineCall (.sys addr) s)

/-- `1nnn` (R104). -/
def execJp (addr : Addr) (s : State) : Result := .next (s.setPc (addr.setWidth 16))

/-- `2nnn`: on a full stack only the push is left out, and the jump still happens (R105, 90_conflicts.md C2). -/
def execCall (addr : Addr) (s : State) : Result :=
  if s.sp = s.params.stackCapacity then
    .next ((warn .stackOverflow (.call addr) s).setPc (addr.setWidth 16))
  else
    pushThen s s.pc (fun t => .next (t.setPc (addr.setWidth 16)))

/-- `3xkk` (R106). -/
def execSeByte (x : Reg) (kk : Byte) (s : State) : Result := .next (s.skipIf (s.reg x == kk))

/-- `4xkk` (R107). -/
def execSneByte (x : Reg) (kk : Byte) (s : State) : Result := .next (s.skipIf (s.reg x != kk))

/-- `5xy0` (R108). -/
def execSeReg (x y : Reg) (s : State) : Result := .next (s.skipIf (s.reg x == s.reg y))

/-- `9xy0` (R109). -/
def execSneReg (x y : Reg) (s : State) : Result := .next (s.skipIf (s.reg x != s.reg y))

/-- `Bnnn` (R110). -/
def execJpV0 (addr : Addr) (s : State) : Result := .next (s.setPc (jumpOffsetTarget addr s))

end Sys2Proof.Machine
end

