-- ==== Sys2Proof/Machine/Display.lean ====
section
/-! DEFINITION. The meaning of class D (43_display.md). -/

namespace Sys2Proof.Machine

/-- `Dxyn` (R121): the range check first, then the blit, then `VF`; the coordinates are read before `VF` is
written. -/
def execDrw (x y : Reg) (n : Nibble) (s : State) : Result :=
  if readOK s.i.toNat n.toNat then
    withBytes s s.i.toNat n.toNat (fun sprite =>
      let k := drawSprite s.fb (s.reg x) (s.reg y) sprite
      .next ({ s with fb := k.fb }.setReg VF (collisionFlag k.collision)).notifyDisplay)
  else raise .spriteOutOfBounds (.drw x y n) s

end Sys2Proof.Machine
end

