-- ==== Sys2Proof/Machine/IndexTimer.lean ====
section
/-! DEFINITION. The meanings of `Annn` and of the index, timer and keyboard instructions of classes E and F
(44_timers_input_memory.md). Every meaning runs on the post-fetch state (30_encoding.md R69). -/

namespace Sys2Proof.Machine

/-- `Annn` (R132). -/
def execLdI (addr : Addr) (s : State) : Result := .next (s.setI (addr.setWidth 16))

/-- The warning of R130: `InvalidKeyIndex` when `V[x] > 15`, and the test goes on. -/
def warnKeyIndex (x : Reg) (i : Instr) (s : State) : State :=
  if (s.reg x).toNat > 15 then warn .invalidKeyIndex i s else s

/-- `Ex9E` (R133). -/
def execSkp (x : Reg) (s : State) : Result :=
  .next ((warnKeyIndex x (.skp x) s).skipIf (keyPressed x s))

/-- `ExA1` (R134). -/
def execSknp (x : Reg) (s : State) : Result :=
  .next ((warnKeyIndex x (.sknp x) s).skipIf (!keyPressed x s))

/-- `Fx07` (R135). -/
def execLdVxDt (x : Reg) (s : State) : Result := .next (s.setReg x s.dt)

/-- `Fx0A`: with no key pressed `PC` goes back to this instruction (R136). -/
def execLdVxK (x : Reg) (s : State) : Result :=
  if s.keys = 0#16 then .next (s.setPc (s.pc - 2)).notifyAwaitingKey
  else .next (s.setReg x (lowestKey s.keys))

/-- `Fx15` (R137). -/
def execLdDtVx (x : Reg) (s : State) : Result := .next { s with dt := s.reg x }

/-- `Fx18` (R138). -/
def execLdStVx (x : Reg) (s : State) : Result := .next { s with st := s.reg x }

/-- `Fx1E`: the sum is of the pre-instruction values and is masked to 12 bits when it passes `0xFFF` (R139). -/
def execAddI (x : Reg) (s : State) : Result :=
  let sum := indexSum x s
  let overflow := decide (sum > 0xFFF)
  let masked := if overflow then sum % 0x1000 else sum
  .next (indexOverflowFlag overflow (s.setI (BitVec.ofNat 16 masked)))

/-- `Fx29`: a digit above 15 is reported and leaves `I` alone (R140). -/
def execLdF (x : Reg) (s : State) : Result :=
  if (s.reg x).toNat > 15 then raise .invalidDigitIndex (.ldF x) s
  else .next (s.setI (glyphAddress (s.reg x)))

end Sys2Proof.Machine
end

