-- ==== Sys2Proof/Machine/Transfer.lean ====
section
/-! DEFINITION. The meanings of the memory transfers `Fx33`, `Fx55` and `Fx65` (44_timers_input_memory.md). Every
meaning runs on the post-fetch state (30_encoding.md R69). -/

namespace Sys2Proof.Machine

/-- `Fx33` (R141). -/
def execLdB (x : Reg) (s : State) : Result :=
  if writeOK s.i.toNat 3 then storeBytes s s.i.toNat (bcdDigits (s.reg x))
  else raise .bcdOutOfBounds (.ldB x) s

/-- The register file after `V[k] <- bs[k]` for every `k` that `bs` reaches (R143). -/
def loadedRegs (v : Vector Byte 16) (bs : List Byte) : Vector Byte 16 :=
  Vector.ofFn (fun r : Fin 16 => bs.getD r.val v[r])

/-- `V[0] .. V[x]` loaded from `I` on (R143). -/
def loadRegs (x : Reg) (s : State) : Result :=
  withBytes s s.i.toNat (x.val + 1) (fun bs => .next { s with v := loadedRegs s.v bs })

/-- `V[0] .. V[x]` stored from `I` on (R142). -/
def saveRegs (x : Reg) (s : State) : Result := storeBytes s s.i.toNat (regsUpTo x s)

/-- The range policy of R131: a transfer whose check passed runs; one whose check failed is reported and, under
`REJECT`, does nothing more; under `WARN` it still runs, or is refused if it reaches an address above `0xFFF`. -/
def transferByPolicy (ok : Bool) (i : Instr) (x : Reg) (go : State → Result) (s : State) : Result :=
  if ok then go s
  else match s.params.transfer with
    | .reject => raise .registerTransferOutOfBounds i s
    | .warn =>
      if readOK s.i.toNat (x.val + 1) then go (warn .registerTransferOutOfBounds i s)
      else .refused .transferBeyondMemory

/-- `Fx55` (R142); `I` is not changed. -/
def execStRegs (x : Reg) (s : State) : Result :=
  transferByPolicy (decide (writeOK s.i.toNat (x.val + 1))) (.stRegs x) x (saveRegs x) s

/-- `Fx65` (R143); `I` is not changed. -/
def execLdRegs (x : Reg) (s : State) : Result :=
  transferByPolicy (decide (readOK s.i.toNat (x.val + 1))) (.ldRegs x) x (loadRegs x) s

end Sys2Proof.Machine
end

