-- ==== Sys2Proof/Machine/Fetch.lean ====
section
/-! DEFINITION. The parts of the sequencer around the instruction (30_encoding.md R69): the start of a step, the
fetch window, the fetch, the advance, and the two reports the sequencer itself makes. -/

namespace Sys2Proof.Machine

/-- The start of a step: every field of the step outcome at its none value (R33, R69). -/
def beginStep (s : State) : State := { s with out := StepOutcome.none }

/-- The fetch window: both bytes of the word lie in `[0x200, 0x1000)` (R69). -/
abbrev fetchable (pc : Word) : Prop := programBase ≤ pc.toNat ∧ pc.toNat ≤ 0xFFE

/-- The word at an address, big-endian (R60). -/
def wordAt (m : Memory) (a : Nat) : Word := wordOfBytes (byteAt m a) (byteAt m (a + 1))

/-- `pc <- PC + 2` (R69). -/
def advance (s : State) : State := s.setPc (s.pc + 2)

/-- `raise ProgramCounterOutOfRange`: no opcode, and `PC` left unmodified (R69, R150). -/
def reportPcOutOfRange (s : State) : State := s.setDiag ⟨.programCounterOutOfRange, none, s.pc⟩

/-- `raise UnknownInstruction` for a fetched word, on the post-fetch state (R65, R150). -/
def reportUnknown (op : Word) (s : State) : State := s.setDiag ⟨.unknownInstruction, some op, s.pcInst⟩

/-- The state an instruction runs on: outcome cleared, `PC` advanced (R69). -/
def postFetch (s : State) : State := advance (beginStep s)

/-- Where `withFetchWord` puts an instruction: at `PC`, or at `0x200` if `PC` is outside the fetch window. -/
def fetchSlot (s : State) : Word := if fetchable s.pc then s.pc else 0x200

end Sys2Proof.Machine
end

