-- ==== Sys2Proof/Machine/Step.lean ====
section
/-! DEFINITION. One step of the machine (30_encoding.md R69), and the placing of an instruction where the step
fetches. -/

namespace Sys2Proof.Machine

/-- `step()` (R69): a step executes at most one instruction. -/
def step (s : State) : Host.Outcome State Fault Refusal :=
  if fetchable s.pc then
    match decodeWord s.params.decode59 (wordAt s.mem s.pc.toNat) with
    | .ok i => exec i (postFetch s)
    | .error _ => .next (reportUnknown (wordAt s.mem s.pc.toNat) (postFetch s))
  else .next (reportPcOutOfRange (beginStep s))

/-- The instruction of an opcode-table word stored where the next step fetches, high byte first. -/
def State.withFetchWord (s : State) (nbits w : Nat) : State :=
  { s with
    pc := fetchSlot s
    mem := writeBytes s.mem (fetchSlot s).toNat [highByte (tableWord nbits w), lowByte (tableWord nbits w)] }

end Sys2Proof.Machine
end

