-- ==== Sys2Proof/Machine/HostOps.lean ====
section
/-! DEFINITION. The host's operations and outputs (00_scope.md R4, R5): the only way the outside world acts on the
machine, each one atomic. -/

namespace Sys2Proof.Machine

/-- Memory at reset for a font (R41, R42, R170): the font at `0x100`, 0 elsewhere. -/
def resetMemory (font : Vector Byte 80) : Memory := writeBytes [] fontBase font.toList

/-- `reset()` (R170): the state right after reset, for the machine's own parameters. The draws already made stay
counted, so that a draw after a reset is still a fresh one (notes/assumptions/3.md). -/
def resetOp (s : State) : State :=
  { State.reset with
    stack := List.replicate s.params.stackCapacity 0
    mem := resetMemory s.params.font
    params := s.params
    draws := s.draws }

/-- The limit of a ROM image, `0xE00` bytes (R171). -/
def romLimit : Nat := 0xE00

/-- `load(rom_bytes)` (R171): at most `0xE00` bytes, from `0x200` on. -/
def load (rom : List Byte) (s : State) : State :=
  { s with mem := writeBytes s.mem programBase (rom.take romLimit) }

/-- `set_keys(k)` (R29). -/
def setKeys (k : Word) (s : State) : State := { s with keys := k }

/-- One tick of a timer: toward 0, never below (R160). -/
def tickTimer (t : Byte) : Byte := if t = 0#8 then 0#8 else t - 1#8

/-- `tick_timers()` (R160). -/
def tickTimers (s : State) : State := { s with dt := tickTimer s.dt, st := tickTimer s.st }

/-- `force_pc(a)` (R154). -/
def forcePc (a : Word) (s : State) : State := { s with pc := a }

/-- `BUZZER = (ST > 0)` (R31, R161). -/
def buzzer (s : State) : Bool := decide (0 < s.st.toNat)

/-- The framebuffer as the host reads it: 256 bytes, row-major (R30, R163). -/
def readFb (s : State) : List Byte := s.fb.toList

/-- The operations of R4. -/
inductive HostOp where
  | reset
  | load (rom : List Byte)
  | setKeys (k : Word)
  | step
  | tickTimers
  | forcePc (a : Word)
  deriving DecidableEq, Repr

/-- One operation of the host, an indivisible transition of the state (R5). -/
def hostStep (op : HostOp) (s : State) : Result :=
  match op with
  | .reset => .next (resetOp s)
  | .load rom => .next (load rom s)
  | .setKeys k => .next (setKeys k s)
  | .step => step s
  | .tickTimers => .next (tickTimers s)
  | .forcePc a => .next (forcePc a s)

end Sys2Proof.Machine
end

