-- ==== Sys2Proof/Safety.lean ====
section
/-! DEFINITION. The terms the statements use: the invariant of the reachable states, the states a host can reach,
a step without a diagnostic, and what it means that an instruction leaves everything else alone. -/

namespace Sys2Proof.Safety

open Sys2Proof Sys2Proof.Machine

/-- The call stack is whole: as many entries as its capacity, and a depth within it (10_state.md R26, R27). -/
abbrev StackOk (s : State) : Prop := s.stack.length = s.params.stackCapacity ∧ s.sp ≤ s.params.stackCapacity

/-- The invariant of every reachable state: memory in its canonical form, `I <= 0xFFF` (R22), a whole stack within
its capacity (R27), legal parameters (R6). -/
abbrev Inv (s : State) : Prop :=
  Memory.wf s.mem = true ∧ s.i.toNat ≤ 0xFFF ∧ StackOk s ∧ s.params.legal

/-- The bounds of R23 and R105: no value a step writes to `PC` is above `0x10FE`, and no return address is above
`0x1000`. -/
abbrev PcBounded (s : State) : Prop := s.pc.toNat ≤ 0x10FE ∧ ∀ a ∈ s.stack, a.toNat ≤ 0x1000

/-- The states a host reaches: from the reset state of any legal parameters, by any operations in any order
(00_scope.md R4, R5). -/
inductive Reachable : State → Prop where
  | reset (p : Params) (h : p.legal) : Reachable (resetOp { State.reset with params := p })
  | host (op : HostOp) (s t : State) (h : Reachable s) (hs : hostStep op s = .next t) : Reachable t

/-- A well-behaved step: no diagnostic reported (92_eei_decisions.md D26). -/
abbrev Clean (t : State) : Prop := t.out.diag = none

/-- The parts of the state that a frame can name as changed. -/
inductive Part where
  | v | i | pc | sp | stack | dt | st | keys | fb | mem | draws | out
  deriving DecidableEq, Repr

/-- Every part of the state but those of `ws` is in `t` as it was in `s`: every register and every byte of memory,
each read as the machine reads it, and every other field. The parameters never change. -/
def SameOutside (ws : List Part) (s t : State) : Prop :=
  (Part.v ∉ ws → ∀ r, t.reg r = s.reg r) ∧
  (Part.i ∉ ws → t.i = s.i) ∧
  (Part.pc ∉ ws → t.pc = s.pc) ∧
  (Part.sp ∉ ws → t.sp = s.sp) ∧
  (Part.stack ∉ ws → t.stack = s.stack) ∧
  (Part.dt ∉ ws → t.dt = s.dt) ∧
  (Part.st ∉ ws → t.st = s.st) ∧
  (Part.keys ∉ ws → t.keys = s.keys) ∧
  (Part.fb ∉ ws → t.fb = s.fb) ∧
  (Part.mem ∉ ws → ∀ a, byteAt t.mem a = byteAt s.mem a) ∧
  (Part.draws ∉ ws → t.draws = s.draws) ∧
  (Part.out ∉ ws → t.out = s.out) ∧
  t.params = s.params

/-- Only the registers of `xs` may change, and nothing else at all. -/
def OnlyRegs (xs : List Reg) (s t : State) : Prop :=
  (∀ r, r ∉ xs → t.reg r = s.reg r) ∧ SameOutside [.v] s t

/-- The instruction reported one diagnostic with its word and its own address, and did nothing else: a `raise` at
its first statement (R8, R150, R152). -/
def OnlyReports (k : DiagKind) (word : Word) (s t : State) : Prop :=
  t.out = { s.out with diag := some ⟨k, some word, s.pc - 2⟩ } ∧ SameOutside [.out] s t

/-- The unknown words of the table of R65. -/
def UnknownWord (m : Decode59) (op : Word) : Prop :=
  (op.toNat / 4096 = 0x8 ∧ op.toNat % 16 ∈ [0x8, 0x9, 0xA, 0xB, 0xC, 0xD, 0xF]) ∨
  (op.toNat / 4096 = 0xE ∧ op.toNat % 256 ∉ [0x9E, 0xA1]) ∨
  (op.toNat / 4096 = 0xF ∧ op.toNat % 256 ∉ [0x07, 0x0A, 0x15, 0x18, 0x1E, 0x29, 0x33, 0x55, 0x65]) ∨
  (m = .unknown ∧ (op.toNat / 4096 = 0x5 ∨ op.toNat / 4096 = 0x9) ∧ op.toNat % 16 ≠ 0)

/-- The operand `V[q]` as the result of a flag-setting ALU instruction reads it (R80): after the flag is written
under `SEQUENTIAL`, before it under `SNAPSHOT`. -/
def operandAfterFlag (s : State) (flag : Nat) (q : Reg) : Nat :=
  if s.params.readOrder = .sequential ∧ q = VF then flag else (s.reg q).toNat

/-- The register a shift reads (R90, R92): `Vx` under `P_SHIFT_SOURCE = X`, `Vy` under `Y`. -/
def shiftedRegister (s : State) (x y : Reg) : Reg := if s.params.shiftSource = .x then x else y

/-- Bit `j` from the left of row `k` of the sprite at `I` is 1 (R120). -/
def SpriteHasBit (s : State) (k j : Nat) : Prop := (byteAt s.mem (s.i.toNat + k)).getLsbD (7 - j) = true

/-- The `n`-row sprite at `I`, drawn at `(V[x], V[y])`, toggles the pixel at column `c` and row `r` (R120). -/
def SpriteCovers (s : State) (x y : Reg) (n : Nibble) (c : Col) (r : Row) : Prop :=
  ∃ k j : Nat, k < n.toNat ∧ j < 8 ∧ SpriteHasBit s k j ∧
    c.val = ((s.reg x).toNat + j) % 64 ∧ r.val = ((s.reg y).toNat + k) % 32

/-- The two bytes a step fetches at `PC` (R60, R69). -/
def fetchedBytes (s : State) : List Byte := [byteAt s.mem s.pc.toNat, byteAt s.mem (s.pc.toNat + 1)]

/-- `PC` lies in the fetch window, and the word there decodes to `i` (R69). -/
def Fetches (s : State) (i : Instr) : Prop :=
  0x200 ≤ s.pc.toNat ∧ s.pc.toNat ≤ 0xFFE ∧ decode s.params.decode59 (fetchedBytes s) = .ok (i, [])

end Sys2Proof.Safety
end

