-- ==== Sys2Proof/Certificates/Slice0/Obligations.lean ====
section
/-! DEFINITION. The statements for the provers. In every statement about `exec i s` the state `s` is the post-fetch
state: its `PC` is `pc_inst + 2` (30_encoding.md R69). R<n> names a rule of spec/, D<n> and G<n> a row of
92_eei_decisions.md and 93_implementation_defined.md, C<n> one of 90_conflicts.md. Wherever a statement says what word
and which `PC` a report carries, that is D4. -/

open Sys2Proof Sys2Proof.Machine Sys2Proof.Safety

/-! ## Encoding and decoding -/

/-- The encoder loses nothing and the decoder drops no bit: for every well-formed instruction with every operand at
every value, under both settings of `P_DECODE_5_9_N` (30_encoding.md, sections 1 and 2). -/
def Obligations.DecodeOfEncodeIsTheInstruction : Prop :=
  ∀ (m : Decode59) (i : Instr) (rest : List Byte), i.wellFormed = true →
    decodeWord m (encode i) = .ok i ∧ decode m (encodeBytes i ++ rest) = .ok (i, rest)

/-- A word that decodes gives a well-formed instruction whose word it is; the one exception is a word of class 5 or 9
under `IGNORE`, whose low nibble is ignored (R63, C8; notes/assumptions/11.md). -/
def Obligations.EncodeOfDecodeIsTheWord : Prop :=
  ∀ (m : Decode59) (op : Word) (i : Instr), decodeWord m op = .ok i →
    i.wellFormed = true ∧
    (encode i = op ∨
      (m = .ignore ∧ (op.toNat / 4096 = 5 ∨ op.toNat / 4096 = 9) ∧ (encode i).toNat = op.toNat / 16 * 16))

/-- R65: the unknown words are exactly those of its table, every other word decodes, and executing an unknown word
reports `UnknownInstruction`, advances `PC` by 2 and changes nothing else. -/
def Obligations.UnknownWordsOnlyAdvancePc : Prop :=
  (∀ (m : Decode59) (op : Word),
    (decodeWord m op = .error (.unknownInstruction op) ↔ UnknownWord m op) ∧
    ((∃ i, decodeWord m op = .ok i) ↔ ¬ UnknownWord m op)) ∧
  (∀ (s : State) (op : Word), 0x200 ≤ s.pc.toNat → s.pc.toNat ≤ 0xFFE →
    op.toNat = (byteAt s.mem s.pc.toNat).toNat * 256 + (byteAt s.mem (s.pc.toNat + 1)).toNat →
    UnknownWord s.params.decode59 op →
    step s = .next { s with pc := s.pc + 2, out := ⟨some ⟨.unknownInstruction, some op, s.pc⟩, false, false⟩ })

/-- The opcode map of R64 row by row: a word that matches a row's mask and match decodes to that row's instruction,
with the fields of R61 read from their bits; in class 0 the rows with more mask bits win. The rows `Annn`, `Fx07`,
`Fx15`, `Fx18` are from general knowledge (D8). -/
def Obligations.DecoderFollowsTheOpcodeMap : Prop :=
  ∀ (m : Decode59) (op : Word) (x y : Reg) (n : Nibble) (kk : Byte) (addr : Addr),
    x.val = op.toNat / 256 % 16 → y.val = op.toNat / 16 % 16 → n.toNat = op.toNat % 16 →
    kk.toNat = op.toNat % 256 → addr.toNat = op.toNat % 4096 →
    (op = 0x00E0#16 → decodeWord m op = .ok .cls) ∧
    (op = 0x00EE#16 → decodeWord m op = .ok .ret) ∧
    (op &&& 0xF000#16 = 0x0000#16 → op ≠ 0x00E0#16 → op ≠ 0x00EE#16 → decodeWord m op = .ok (.sys addr)) ∧
    (op &&& 0xF000#16 = 0x1000#16 → decodeWord m op = .ok (.jp addr)) ∧
    (op &&& 0xF000#16 = 0x2000#16 → decodeWord m op = .ok (.call addr)) ∧
    (op &&& 0xF000#16 = 0x3000#16 → decodeWord m op = .ok (.seByte x kk)) ∧
    (op &&& 0xF000#16 = 0x4000#16 → decodeWord m op = .ok (.sneByte x kk)) ∧
    (op &&& 0xF000#16 = 0x5000#16 → m = .ignore → decodeWord m op = .ok (.seReg x y)) ∧
    (op &&& 0xF00F#16 = 0x5000#16 → decodeWord m op = .ok (.seReg x y)) ∧
    (op &&& 0xF000#16 = 0x6000#16 → decodeWord m op = .ok (.ldByte x kk)) ∧
    (op &&& 0xF000#16 = 0x7000#16 → decodeWord m op = .ok (.addByte x kk)) ∧
    (op &&& 0xF00F#16 = 0x8000#16 → decodeWord m op = .ok (.ldReg x y)) ∧
    (op &&& 0xF00F#16 = 0x8001#16 → decodeWord m op = .ok (.orReg x y)) ∧
    (op &&& 0xF00F#16 = 0x8002#16 → decodeWord m op = .ok (.andReg x y)) ∧
    (op &&& 0xF00F#16 = 0x8003#16 → decodeWord m op = .ok (.xorReg x y)) ∧
    (op &&& 0xF00F#16 = 0x8004#16 → decodeWord m op = .ok (.addReg x y)) ∧
    (op &&& 0xF00F#16 = 0x8005#16 → decodeWord m op = .ok (.sub x y)) ∧
    (op &&& 0xF00F#16 = 0x8006#16 → decodeWord m op = .ok (.shr x y)) ∧
    (op &&& 0xF00F#16 = 0x8007#16 → decodeWord m op = .ok (.subn x y)) ∧
    (op &&& 0xF00F#16 = 0x800E#16 → decodeWord m op = .ok (.shl x y)) ∧
    (op &&& 0xF000#16 = 0x9000#16 → m = .ignore → decodeWord m op = .ok (.sneReg x y)) ∧
    (op &&& 0xF00F#16 = 0x9000#16 → decodeWord m op = .ok (.sneReg x y)) ∧
    (op &&& 0xF000#16 = 0xA000#16 → decodeWord m op = .ok (.ldI addr)) ∧
    (op &&& 0xF000#16 = 0xB000#16 → decodeWord m op = .ok (.jpV0 addr)) ∧
    (op &&& 0xF000#16 = 0xC000#16 → decodeWord m op = .ok (.rnd x kk)) ∧
    (op &&& 0xF000#16 = 0xD000#16 → decodeWord m op = .ok (.drw x y n)) ∧
    (op &&& 0xF0FF#16 = 0xE09E#16 → decodeWord m op = .ok (.skp x)) ∧
    (op &&& 0xF0FF#16 = 0xE0A1#16 → decodeWord m op = .ok (.sknp x)) ∧
    (op &&& 0xF0FF#16 = 0xF007#16 → decodeWord m op = .ok (.ldVxDt x)) ∧
    (op &&& 0xF0FF#16 = 0xF00A#16 → decodeWord m op = .ok (.ldVxK x)) ∧
    (op &&& 0xF0FF#16 = 0xF015#16 → decodeWord m op = .ok (.ldDtVx x)) ∧
    (op &&& 0xF0FF#16 = 0xF018#16 → decodeWord m op = .ok (.ldStVx x)) ∧
    (op &&& 0xF0FF#16 = 0xF01E#16 → decodeWord m op = .ok (.addI x)) ∧
    (op &&& 0xF0FF#16 = 0xF029#16 → decodeWord m op = .ok (.ldF x)) ∧
    (op &&& 0xF0FF#16 = 0xF033#16 → decodeWord m op = .ok (.ldB x)) ∧
    (op &&& 0xF0FF#16 = 0xF055#16 → decodeWord m op = .ok (.stRegs x)) ∧
    (op &&& 0xF0FF#16 = 0xF065#16 → decodeWord m op = .ok (.ldRegs x))

/-- R66, R103: every class-0 word other than `00E0` and `00EE`, `0000` among them, is a legacy machine call: it is
reported as such and does nothing else. -/
def Obligations.LegacyMachineCallsAreReportedAndIgnored : Prop :=
  ∀ (m : Decode59) (op : Word), op.toNat / 4096 = 0 → op ≠ 0x00E0#16 → op ≠ 0x00EE#16 →
    ∃ addr : Addr, addr.toNat = op.toNat ∧ decodeWord m op = .ok (.sys addr) ∧
      ∀ s : State, ∃ t, exec (.sys addr) s = .next t ∧ OnlyReports .legacyMachineCall op s t

/-- Words of programs P1 to P4 of 95_test_vectors.md decode to the instructions beside them there. -/
def Obligations.ProgramListingWordsDecode : Prop :=
  ∀ m : Decode59,
    decodeWord m 0x8014#16 = .ok (.addReg 0 1) ∧ decodeWord m 0x71FF#16 = .ok (.addByte 1 0xFF#8) ∧
    decodeWord m 0x1204#16 = .ok (.jp 0x204#12) ∧ decodeWord m 0xFA33#16 = .ok (.ldB 10) ∧
    decodeWord m 0xF265#16 = .ok (.ldRegs 2) ∧ decodeWord m 0xD125#16 = .ok (.drw 1 2 5#4) ∧
    decodeWord m 0xF00A#16 = .ok (.ldVxK 0) ∧ decodeWord m 0x00EE#16 = .ok .ret

/-! ## The sequencer -/

/-- R69: where the bytes at `PC` decode, a step is the instruction's effect on the state with `PC` advanced by 2 and
the step outcome cleared. The upper end of the window, `0xFFE`, is D3. -/
def Obligations.StepRunsTheDecodedInstruction : Prop :=
  ∀ (s : State) (i : Instr), Fetches s i →
    step s = exec i { s with pc := s.pc + 2, out := ⟨none, false, false⟩ }

/-- R69, R153: outside the fetch window a step reports `ProgramCounterOutOfRange` with the `PC` and no opcode, writes
nothing else, and every later step, whatever keys or ticks come between, reports the same. The end `0xFFE` is D3, the
fields of the report are D4. -/
def Obligations.FetchOutsideTheWindowIsStuck : Prop :=
  ∀ s : State, s.pc.toNat < 0x200 ∨ 0xFFE < s.pc.toNat →
    ∃ t, step s = .next t ∧
      t = { s with out := ⟨some ⟨.programCounterOutOfRange, none, s.pc⟩, false, false⟩ } ∧
      step t = .next t ∧ step (tickTimers t) = .next (tickTimers t) ∧
      ∀ k, step (setKeys k t) = .next (setKeys k t)

/-- R150: a diagnostic carries the address of the word that caused it, and that word, or no word where the fetch
itself was out of range. Which `PC` is meant is D4. -/
def Obligations.DiagnosticsNameTheFetchedWord : Prop :=
  ∀ (s t : State) (d : Diagnostic), step s = .next t → t.out.diag = some d →
    d.pc = s.pc ∧
    (d.kind = .programCounterOutOfRange → d.opcode = none ∧ (s.pc.toNat < 0x200 ∨ 0xFFE < s.pc.toNat)) ∧
    (d.kind ≠ .programCounterOutOfRange →
      ∃ op : Word, d.opcode = some op ∧
        op.toNat = (byteAt s.mem s.pc.toNat).toNat * 256 + (byteAt s.mem (s.pc.toNat + 1)).toNat)

/-- R33: after a step, `out.display_changed` is set iff the step ran `00E0` or a `Dxyn` whose sprite is inside memory
(R123), and `out.awaiting_key` iff it ran `Fx0A` with no key pressed (R136); neither is left over from an earlier
step. That the outcome is cleared at each step is D28, that a draw of no rows counts is D18. -/
def Obligations.OutcomeBitsTellWhatTheStepDid : Prop :=
  ∀ s t : State, step s = .next t →
    (t.out.displayChanged = true ↔
      Fetches s .cls ∨ ∃ x y n, Fetches s (.drw x y n) ∧ s.i.toNat + n.toNat ≤ 0x1000) ∧
    (t.out.awaitingKey = true ↔ (∃ x, Fetches s (.ldVxK x)) ∧ s.keys = 0#16)

/-! ## Arithmetic and logic -/

/-- R82, R84: `6xkk` writes `kk` to `Vx` and `8xy0` writes `Vy` to `Vx`; nothing else changes, `VF` included. That
these rows load is D30. -/
def Obligations.LoadsWriteOnlyVx : Prop :=
  ∀ (x y : Reg) (kk : Byte) (s : State),
    (∃ t, exec (.ldByte x kk) s = .next t ∧ t.reg x = kk ∧ OnlyRegs [x] s t) ∧
    (∃ t, exec (.ldReg x y) s = .next t ∧ t.reg x = s.reg y ∧ OnlyRegs [x] s t)

/-- R83: the word `7xkk` adds modulo 256 and sets no flag, whatever the sum. -/
def Obligations.AddImmediateWrapsAndSetsNoFlag : Prop :=
  ∀ (x : Reg) (kk : Byte),
    (∀ (m : Decode59) (op : Word), op.toNat = 0x7000 + x.val * 256 + kk.toNat →
      decodeWord m op = .ok (.addByte x kk)) ∧
    ∀ s : State, ∃ t, exec (.addByte x kk) s = .next t ∧
      (t.reg x).toNat = ((s.reg x).toNat + kk.toNat) % 256 ∧ OnlyRegs [x] s t

/-- R85, R86, R87: `8xy1` ORs, `8xy2` ANDs and `8xy3` XORs, bit by bit, and `VF` is not reset. Which operation is
which is D30, the untouched `VF` D11. -/
def Obligations.LogicWorksBitByBit : Prop :=
  ∀ (x y : Reg) (s : State),
    (∃ t, exec (.orReg x y) s = .next t ∧ OnlyRegs [x] s t ∧
      ∀ k, k < 8 → (t.reg x).getLsbD k = ((s.reg x).getLsbD k || (s.reg y).getLsbD k)) ∧
    (∃ t, exec (.andReg x y) s = .next t ∧ OnlyRegs [x] s t ∧
      ∀ k, k < 8 → (t.reg x).getLsbD k = ((s.reg x).getLsbD k && (s.reg y).getLsbD k)) ∧
    (∃ t, exec (.xorReg x y) s = .next t ∧ OnlyRegs [x] s t ∧
      ∀ k, k < 8 → (t.reg x).getLsbD k = ((s.reg x).getLsbD k != (s.reg y).getLsbD k))

/-- R88: `8xy4` adds modulo 256, and `VF` is 1 iff the sum exceeds 255, unless `VF` is the destination. What a result
reads from a `VF` operand is `P_ALU_READ_ORDER`, D10. -/
def Obligations.AddRegistersSetsCarry : Prop :=
  ∀ (x y : Reg) (s : State) (flag : Nat),
    flag = (if (s.reg x).toNat + (s.reg y).toNat > 255 then 1 else 0) →
    ∃ t, exec (.addReg x y) s = .next t ∧
      (t.reg x).toNat = (operandAfterFlag s flag x + operandAfterFlag s flag y) % 256 ∧
      (x ≠ VF → (t.reg VF).toNat = flag) ∧ OnlyRegs [x, VF] s t

/-- R89: `8xy5` subtracts `Vy` from `Vx` modulo 256, and `VF` is 1 iff there is no borrow, `Vx >= Vy`, unless `VF` is
the destination. The operand order is D30, the read order D10. -/
def Obligations.SubtractSetsNoBorrow : Prop :=
  ∀ (x y : Reg) (s : State) (flag : Nat),
    flag = (if (s.reg x).toNat ≥ (s.reg y).toNat then 1 else 0) →
    ∃ t, exec (.sub x y) s = .next t ∧
      (t.reg x).toNat = (operandAfterFlag s flag x + 256 - operandAfterFlag s flag y) % 256 ∧
      (x ≠ VF → (t.reg VF).toNat = flag) ∧ OnlyRegs [x, VF] s t

/-- R91: `8xy7` subtracts `Vx` from `Vy` into `Vx`, and `VF` is 1 iff `Vy >= Vx`, unless `VF` is the destination. The
operand order is D30, the read order D10. -/
def Obligations.SubtractReverseSetsNoBorrow : Prop :=
  ∀ (x y : Reg) (s : State) (flag : Nat),
    flag = (if (s.reg y).toNat ≥ (s.reg x).toNat then 1 else 0) →
    ∃ t, exec (.subn x y) s = .next t ∧
      (t.reg x).toNat = (operandAfterFlag s flag y + 256 - operandAfterFlag s flag x) % 256 ∧
      (x ≠ VF → (t.reg VF).toNat = flag) ∧ OnlyRegs [x, VF] s t

/-- R90: `8xy6` halves its source into `Vx`, and `VF` is bit 0 of the source, unless `VF` is the destination. The
source is `P_SHIFT_SOURCE` and the direction D12, the read order D10. -/
def Obligations.ShiftRightSetsBitShiftedOut : Prop :=
  ∀ (x y : Reg) (s : State) (flag : Nat),
    flag = (s.reg (shiftedRegister s x y)).toNat % 2 →
    ∃ t, exec (.shr x y) s = .next t ∧
      (t.reg x).toNat = operandAfterFlag s flag (shiftedRegister s x y) / 2 ∧
      (x ≠ VF → (t.reg VF).toNat = flag) ∧ OnlyRegs [x, VF] s t

/-- R92: `8xyE` doubles its source modulo 256 into `Vx`, and `VF` is bit 7 of the source, unless `VF` is the
destination. The source is `P_SHIFT_SOURCE` and the direction D12, the read order D10. -/
def Obligations.ShiftLeftSetsBitShiftedOut : Prop :=
  ∀ (x y : Reg) (s : State) (flag : Nat),
    flag = (s.reg (shiftedRegister s x y)).toNat / 128 →
    ∃ t, exec (.shl x y) s = .next t ∧
      (t.reg x).toNat = operandAfterFlag s flag (shiftedRegister s x y) * 2 % 256 ∧
      (x ≠ VF → (t.reg VF).toNat = flag) ∧ OnlyRegs [x, VF] s t

/-- R93: `Cxkk` writes one fresh draw masked by `kk` to `Vx`, so no bit outside `kk`, and the next draw is another
one. The draw is the free value of D22 (notes/assumptions/3.md); the statement holds whatever it is. -/
def Obligations.RandomIsAFreshMaskedDraw : Prop :=
  ∀ (x : Reg) (kk : Byte) (s : State), ∃ t, exec (.rnd x kk) s = .next t ∧
    (∀ k, k < 8 → (t.reg x).getLsbD k = ((Config.randomByte s.draws).getLsbD k && kk.getLsbD k)) ∧
    t.draws = s.draws + 1 ∧ (∀ r, r ≠ x → t.reg r = s.reg r) ∧ SameOutside [.v, .draws] s t

/-- R80: the two values of `P_ALU_READ_ORDER` give the same result whenever `x` and `y` are not `F` (D10). -/
def Obligations.ReadOrdersAgreeAwayFromVf : Prop :=
  ∀ (x y : Reg) (i : Instr) (s : State) (p q : Params), x ≠ VF → y ≠ VF →
    i ∈ [Instr.addReg x y, .sub x y, .shr x y, .subn x y, .shl x y] →
    p = { s.params with readOrder := .snapshot } → q = { s.params with readOrder := .sequential } →
    ∃ t : State, exec i { s with params := p } = .next { t with params := p } ∧
      exec i { s with params := q } = .next { t with params := q }

/-- R21: `VF` changes only by the instructions that write it as a flag, and by those that name register 15 as an
ordinary destination. -/
def Obligations.OnlyFlagWritersAndDestinationsChangeVf : Prop :=
  ∀ (i : Instr) (s t : State), exec i s = .next t → t.reg VF ≠ s.reg VF →
    (∃ x y, i ∈ [Instr.addReg x y, .sub x y, .subn x y, .shr x y, .shl x y]) ∨
    (∃ x y n, i = .drw x y n) ∨ (∃ x, i = .addI x) ∨
    (∃ kk y, i ∈ [Instr.ldByte VF kk, .addByte VF kk, .ldReg VF y, .orReg VF y, .andReg VF y, .xorReg VF y,
      .rnd VF kk, .ldVxDt VF, .ldVxK VF, .ldRegs VF])

/-! ## Control flow -/

/-- R101: the word `00E0`, exactly, clears all 256 bytes of the display and notifies, even if it was clear. -/
def Obligations.ClearScreenClearsAndNotifies : Prop :=
  (∀ (m : Decode59) (op : Word), decodeWord m op = .ok .cls ↔ op = 0x00E0#16) ∧
  ∀ s : State, ∃ t, exec .cls s = .next t ∧ (∀ k (h : k < 256), t.fb[k] = 0#8) ∧
    t.out = { s.out with displayChanged := true } ∧ SameOutside [.fb, .out] s t

/-- R102: `00EE` moves the top entry to `PC`, the entry keeping its value; on an empty stack it only reports
`StackUnderflow` and `PC` stays `pc_inst + 2` (D5, C5). -/
def Obligations.ReturnPopsOrUnderflows : Prop :=
  ∀ s : State, StackOk s →
    (s.sp = 0 → ∃ t, exec .ret s = .next t ∧ OnlyReports .stackUnderflow 0x00EE#16 s t) ∧
    (0 < s.sp → ∃ t, exec .ret s = .next t ∧ s.stack[s.sp - 1]? = some t.pc ∧ t.sp = s.sp - 1 ∧
      SameOutside [.pc, .sp] s t)

/-- R104: the word `1nnn` sets `PC` to `nnn` and does nothing else; a target below `0x200` or `0xFFF` is reported by the
next step; a jump to itself runs again at every step. -/
def Obligations.JumpSetsPc : Prop :=
  ∀ addr : Addr,
    (∀ (m : Decode59) (op : Word), op.toNat = 0x1000 + addr.toNat → decodeWord m op = .ok (.jp addr)) ∧
    (∀ s : State, ∃ t, exec (.jp addr) s = .next t ∧ t.pc.toNat = addr.toNat ∧ SameOutside [.pc] s t ∧
      (addr.toNat < 0x200 ∨ addr.toNat = 0xFFF → ∃ u d, step t = .next u ∧ u.out.diag = some d ∧
        d.kind = .programCounterOutOfRange ∧ SameOutside [.out] t u)) ∧
    (∀ s : State, Fetches s (.jp addr) → s.pc.toNat = addr.toNat →
      ∃ t, step s = .next t ∧ t.pc = s.pc ∧ SameOutside [.out] s t ∧ step t = .next t)

/-- R110: `Bnnn` sets `PC` to `nnn` plus the offset register, `V0` or, under `P_JUMP_OFFSET_REG = VX`, the register of
the top nibble of `nnn`; the sum is not masked to 12 bits (D9). -/
def Obligations.JumpWithOffsetAddsUnmasked : Prop :=
  ∀ (addr : Addr) (x : Reg) (s : State), x.val = (if s.params.jumpOffset = .v0 then 0 else addr.toNat / 256) →
    ∃ t, exec (.jpV0 addr) s = .next t ∧ t.pc.toNat = addr.toNat + (s.reg x).toNat ∧ SameOutside [.pc] s t

/-- R105: `2nnn` pushes the post-fetch `PC` and jumps; on a full stack only the push is left out: it reports
`StackOverflow`, the stack and its depth are unchanged, and the jump still happens. -/
def Obligations.CallPushesOrOverflowsAndJumps : Prop :=
  ∀ (addr : Addr) (s : State) (op : Word), StackOk s → op.toNat = 0x2000 + addr.toNat →
    (s.sp = s.params.stackCapacity → ∃ t, exec (.call addr) s = .next t ∧ t.pc.toNat = addr.toNat ∧
      t.out = { s.out with diag := some ⟨.stackOverflow, some op, s.pc - 2⟩ } ∧ SameOutside [.pc, .out] s t) ∧
    (s.sp < s.params.stackCapacity → ∃ t, exec (.call addr) s = .next t ∧ t.pc.toNat = addr.toNat ∧
      t.stack[s.sp]? = some s.pc ∧ (∀ k, k ≠ s.sp → t.stack[k]? = s.stack[k]?) ∧ t.sp = s.sp + 1 ∧
      SameOutside [.pc, .sp, .stack] s t)

/-- R106 to R109: the four skips add 2 to `PC` iff their condition holds, and do nothing else. The conditions are
D30. -/
def Obligations.SkipsFollowTheirConditions : Prop :=
  ∀ (x y : Reg) (kk : Byte) (s : State),
    (∃ t, exec (.seByte x kk) s = .next t ∧ t.pc = (if (s.reg x).toNat = kk.toNat then s.pc + 2 else s.pc) ∧
      SameOutside [.pc] s t) ∧
    (∃ t, exec (.sneByte x kk) s = .next t ∧ t.pc = (if (s.reg x).toNat = kk.toNat then s.pc else s.pc + 2) ∧
      SameOutside [.pc] s t) ∧
    (∃ t, exec (.seReg x y) s = .next t ∧ t.pc = (if (s.reg x).toNat = (s.reg y).toNat then s.pc + 2 else s.pc) ∧
      SameOutside [.pc] s t) ∧
    (∃ t, exec (.sneReg x y) s = .next t ∧ t.pc = (if (s.reg x).toNat = (s.reg y).toNat then s.pc else s.pc + 2) ∧
      SameOutside [.pc] s t)

/-- R102, R105: a call below the capacity, followed from any later `PC`, register, timer or memory contents by a
return on the same stack, comes back to the instruction after the call, at the depth before it. -/
def Obligations.ReturnComesBackToItsCall : Prop :=
  ∀ (addr : Addr) (s t u : State), StackOk s → s.sp < s.params.stackCapacity → exec (.call addr) s = .next t →
    u.stack = t.stack → u.sp = t.sp → ∃ w, exec .ret u = .next w ∧ w.pc = s.pc ∧ w.sp = s.sp

/-! ## Display -/

/-- R120, R121: with the sprite inside memory `Dxyn` inverts exactly the covered pixels, wrapping at both edges; `VF`
is 1 iff a covered pixel was set, else 0; the host is notified; the coordinates are those before `VF` is written. A
draw of no rows is D18, the bit order D19. -/
def Obligations.DrawXorsTheSpriteAndReportsCollision : Prop :=
  ∀ (x y : Reg) (n : Nibble) (s : State), s.i.toNat + n.toNat ≤ 0x1000 →
    ∃ t, exec (.drw x y n) s = .next t ∧
      (∀ c r, SpriteCovers s x y n c r → pixel t.fb c r = !pixel s.fb c r) ∧
      (∀ c r, ¬ SpriteCovers s x y n c r → pixel t.fb c r = pixel s.fb c r) ∧
      ((∃ c r, SpriteCovers s x y n c r ∧ pixel s.fb c r = true) → t.reg VF = 1#8) ∧
      ((¬ ∃ c r, SpriteCovers s x y n c r ∧ pixel s.fb c r = true) → t.reg VF = 0#8) ∧
      t.out = { s.out with displayChanged := true } ∧
      (∀ r, r ≠ VF → t.reg r = s.reg r) ∧ SameOutside [.v, .fb, .out] s t

/-- R121: a sprite that reaches beyond memory is not drawn at all: `SpriteOutOfBounds` is reported and nothing else
changes; that `VF` is left alone and the host not notified is D20. -/
def Obligations.SpriteBeyondMemoryIsNotDrawn : Prop :=
  ∀ (x y : Reg) (n : Nibble) (s : State) (op : Word), 0x1000 < s.i.toNat + n.toNat →
    op.toNat = 0xD000 + x.val * 256 + y.val * 16 + n.toNat →
    ∃ t, exec (.drw x y n) s = .next t ∧ OnlyReports .spriteOutOfBounds op s t

/-- R122, first sentence: drawing the same sprite twice at the same location restores the display. Between the two draws
anything but the display, `I`, the sprite and the two coordinates may change. By R121 the second draw writes `VF = 1` iff
the FIRST draw turned some pixel on; the second sentence of R122 leaves out the pixels it turned off
(notes/assumptions/12.md). -/
def Obligations.DrawingTwiceRestoresTheDisplay : Prop :=
  ∀ (x y : Reg) (n : Nibble) (s t u : State), s.i.toNat + n.toNat ≤ 0x1000 → exec (.drw x y n) s = .next t →
    u.fb = t.fb → u.i = s.i → (∀ a, byteAt u.mem a = byteAt s.mem a) →
    u.reg x = s.reg x → u.reg y = s.reg y →
    ∃ w, exec (.drw x y n) u = .next w ∧ w.fb = s.fb ∧
      ((∃ c r, SpriteCovers s x y n c r ∧ pixel s.fb c r = false) → w.reg VF = 1#8) ∧
      ((¬ ∃ c r, SpriteCovers s x y n c r ∧ pixel s.fb c r = false) → w.reg VF = 0#8)

/-- R122, second sentence, where its reason holds: if no pixel under a set sprite bit was lit before the first draw, each is
lit after it, and the second draw writes `VF = 1` iff the sprite has any bit set, else `VF = 0`. Without that premise the
sentence does not follow from R121 (notes/assumptions/12.md). -/
def Obligations.SecondDrawOverClearPixelsTellsAnyBit : Prop :=
  ∀ (x y : Reg) (n : Nibble) (s t u : State), s.i.toNat + n.toNat ≤ 0x1000 → exec (.drw x y n) s = .next t →
    u.fb = t.fb → u.i = s.i → (∀ a, byteAt u.mem a = byteAt s.mem a) →
    u.reg x = s.reg x → u.reg y = s.reg y →
    (∀ c r, SpriteCovers s x y n c r → pixel s.fb c r = false) →
    ∃ w, exec (.drw x y n) u = .next w ∧ w.fb = s.fb ∧
      ((∃ k j, k < n.toNat ∧ j < 8 ∧ SpriteHasBit s k j) → w.reg VF = 1#8) ∧
      ((¬ ∃ k j, k < n.toNat ∧ j < 8 ∧ SpriteHasBit s k j) → w.reg VF = 0#8)

/-! ## Index, timers, keys -/

/-- R132: `Annn` sets `I` to `nnn` and changes nothing else. The row is from general knowledge (D8). -/
def Obligations.LoadIndexSetsI : Prop :=
  ∀ (addr : Addr) (s : State), ∃ t, exec (.ldI addr) s = .next t ∧ t.i.toNat = addr.toNat ∧ SameOutside [.i] s t

/-- R130, R133, R134: `Ex9E` skips iff the key `V[x] mod 16` is pressed and `ExA1` iff it is not; a value above 15 is
reported as `InvalidKeyIndex` and the test still runs. The reduction is D16, the sense D30. -/
def Obligations.KeySkipsTestKeyModSixteen : Prop :=
  ∀ (x : Reg) (s : State) (down : Bool), down = s.keys.getLsbD ((s.reg x).toNat % 16) →
    (∃ t, exec (.skp x) s = .next t ∧ t.pc = (if down then s.pc + 2 else s.pc) ∧
      t.out = (if 15 < (s.reg x).toNat
        then { s.out with diag := some ⟨.invalidKeyIndex, some (encode (.skp x)), s.pc - 2⟩ } else s.out) ∧
      SameOutside [.pc, .out] s t) ∧
    (∃ t, exec (.sknp x) s = .next t ∧ t.pc = (if down then s.pc else s.pc + 2) ∧
      t.out = (if 15 < (s.reg x).toNat
        then { s.out with diag := some ⟨.invalidKeyIndex, some (encode (.sknp x)), s.pc - 2⟩ } else s.out) ∧
      SameOutside [.pc, .out] s t)

/-- R135, R137, R138: `Fx07` reads `DT`, `Fx15` sets `DT`, `Fx18` sets `ST` and with it the buzzer (R31); nothing else
changes. The three rows are from general knowledge (D8). -/
def Obligations.TimerMovesCopyOneByte : Prop :=
  ∀ (x : Reg) (s : State),
    (∃ t, exec (.ldVxDt x) s = .next t ∧ t.reg x = s.dt ∧ OnlyRegs [x] s t) ∧
    (∃ t, exec (.ldDtVx x) s = .next t ∧ t.dt = s.reg x ∧ SameOutside [.dt] s t) ∧
    (∃ t, exec (.ldStVx x) s = .next t ∧ t.st = s.reg x ∧ (buzzer t = true ↔ s.reg x ≠ 0#8) ∧ SameOutside [.st] s t)

/-- R136: the word `Fx0A` with no key pressed takes `PC` back by 2 and tells the host it waits, and every step on it
leaves everything but the outcome as it was until a key is set; with a key pressed `Vx` gets the number of the lowest
pressed key. -/
def Obligations.KeyWaitRewindsOrTakesLowestKey : Prop :=
  ∀ x : Reg,
    (∀ (m : Decode59) (op : Word), op.toNat = 0xF00A + x.val * 256 → decodeWord m op = .ok (.ldVxK x)) ∧
    (∀ s : State, s.keys = 0#16 → ∃ t, exec (.ldVxK x) s = .next t ∧ t.pc = s.pc - 2 ∧
      t.out = { s.out with awaitingKey := true } ∧ SameOutside [.pc, .out] s t) ∧
    (∀ s : State, s.keys ≠ 0#16 → ∃ t, exec (.ldVxK x) s = .next t ∧ s.keys.getLsbD (t.reg x).toNat = true ∧
      (∀ j, j < (t.reg x).toNat → s.keys.getLsbD j = false) ∧ OnlyRegs [x] s t) ∧
    (∀ s : State, Fetches s (.ldVxK x) → s.keys = 0#16 →
      ∃ t, step s = .next t ∧ t.out = ⟨none, false, true⟩ ∧ SameOutside [.out] s t ∧ step t = .next t)

/-- R139: `Fx1E` adds the old `V[x]` to `I`, masked to 12 bits when the sum passes `0xFFF`, which sets `VF`. What `VF`
holds without overflow, and whether the flag is written at all, are the parameters of D13. -/
def Obligations.AddToIndexMasksAndFlags : Prop :=
  ∀ (x : Reg) (s : State) (sum : Nat), sum = s.i.toNat + (s.reg x).toNat →
    ∃ t, exec (.addI x) s = .next t ∧
      t.i.toNat = (if sum > 0xFFF then sum % 0x1000 else sum) ∧
      t.reg VF = (if s.params.overflowFlag = .set ∧ sum > 0xFFF then 1#8
        else if s.params.overflowFlag = .set ∧ s.params.noOverflowVf = .clear then 0#8 else s.reg VF) ∧
      (∀ r, r ≠ VF → t.reg r = s.reg r) ∧ SameOutside [.v, .i] s t

/-- R140: `Fx29` points `I` at the five-byte glyph of the digit `V[x]`, at `0x100 + 5 * V[x]`; a value above 15 is
reported as `InvalidDigitIndex` and leaves `I` alone. The glyph order is D21. -/
def Obligations.GlyphAddressOrInvalidDigit : Prop :=
  ∀ (x : Reg) (s : State) (op : Word), op.toNat = 0xF029 + x.val * 256 →
    ((s.reg x).toNat ≤ 15 → ∃ t, exec (.ldF x) s = .next t ∧ t.i.toNat = 0x100 + 5 * (s.reg x).toNat ∧
      SameOutside [.i] s t) ∧
    (15 < (s.reg x).toNat → ∃ t, exec (.ldF x) s = .next t ∧ OnlyReports .invalidDigitIndex op s t)

/-! ## Memory -/

/-- R141: `Fx33` stores the three decimal digits of `V[x]`, most significant first, at `I`, `I+1`, `I+2`, and no other
byte changes; with `I` below `0x200` or above `0xFFD` it only reports `BcdOutOfBounds`. -/
def Obligations.BcdStoresThreeDigits : Prop :=
  ∀ (x : Reg) (s : State) (op : Word), Memory.wf s.mem = true → op.toNat = 0xF033 + x.val * 256 →
    (0x200 ≤ s.i.toNat ∧ s.i.toNat ≤ 0xFFD → ∃ t, exec (.ldB x) s = .next t ∧
      (byteAt t.mem s.i.toNat).toNat = (s.reg x).toNat / 100 ∧
      (byteAt t.mem (s.i.toNat + 1)).toNat = (s.reg x).toNat / 10 % 10 ∧
      (byteAt t.mem (s.i.toNat + 2)).toNat = (s.reg x).toNat % 10 ∧
      (∀ a, a < s.i.toNat ∨ s.i.toNat + 3 ≤ a → byteAt t.mem a = byteAt s.mem a) ∧ SameOutside [.mem] s t) ∧
    (s.i.toNat < 0x200 ∨ 0xFFD < s.i.toNat → ∃ t, exec (.ldB x) s = .next t ∧ OnlyReports .bcdOutOfBounds op s t)

/-- R142: `Fx55` with its whole range in `0x200` to `0xFFF` stores `V0` to `Vx` at `I` to `I+x`, and no other byte
changes; that `I` does not change is D14. -/
def Obligations.StoreRegistersWritesTheirBytes : Prop :=
  ∀ (x : Reg) (s : State), Memory.wf s.mem = true → 0x200 ≤ s.i.toNat → s.i.toNat + x.val ≤ 0xFFF →
    ∃ t, exec (.stRegs x) s = .next t ∧ (∀ r : Reg, r ≤ x → byteAt t.mem (s.i.toNat + r.val) = s.reg r) ∧
      (∀ a, a < s.i.toNat ∨ s.i.toNat + x.val < a → byteAt t.mem a = byteAt s.mem a) ∧ SameOutside [.mem] s t

/-- R143: `Fx65` with its range inside memory, the reserved area included, loads `V0` to `Vx` from `I` to `I+x`, and no
other register changes; that `I` does not change is D14. -/
def Obligations.LoadRegistersReadsTheirBytes : Prop :=
  ∀ (x : Reg) (s : State), s.i.toNat + x.val ≤ 0xFFF →
    ∃ t, exec (.ldRegs x) s = .next t ∧ (∀ r : Reg, r ≤ x → t.reg r = byteAt s.mem (s.i.toNat + r.val)) ∧
      (∀ r : Reg, x < r → t.reg r = s.reg r) ∧ SameOutside [.v] s t

/-- R131 under `REJECT`: a transfer whose range check fails only reports `RegisterTransferOutOfBounds`; no register and
no byte changes (D15). -/
def Obligations.RejectedTransferOnlyReports : Prop :=
  ∀ (x : Reg) (s : State), s.params.transfer = .reject →
    (s.i.toNat < 0x200 ∨ 0xFFF < s.i.toNat + x.val → ∃ t, exec (.stRegs x) s = .next t ∧
      OnlyReports .registerTransferOutOfBounds (encode (.stRegs x)) s t) ∧
    (0xFFF < s.i.toNat + x.val → ∃ t, exec (.ldRegs x) s = .next t ∧
      OnlyReports .registerTransferOutOfBounds (encode (.ldRegs x)) s t)

/-- R131 under `WARN`: an `Fx55` below `0x200` and inside memory is reported and still stores its registers; a transfer
that reaches an address above `0xFFF` is refused as `TransferBeyondMemory` (D15). -/
def Obligations.WarnedTransferStoresOrIsRefused : Prop :=
  ∀ (x : Reg) (s : State), Memory.wf s.mem = true → s.params.transfer = .warn →
    (s.i.toNat < 0x200 → s.i.toNat + x.val ≤ 0xFFF → ∃ t, exec (.stRegs x) s = .next t ∧
      (∀ r : Reg, r ≤ x → byteAt t.mem (s.i.toNat + r.val) = s.reg r) ∧
      (∀ a, a < s.i.toNat ∨ s.i.toNat + x.val < a → byteAt t.mem a = byteAt s.mem a) ∧
      t.out = { s.out with diag := some ⟨.registerTransferOutOfBounds, some (encode (.stRegs x)), s.pc - 2⟩ } ∧
      SameOutside [.mem, .out] s t) ∧
    (0xFFF < s.i.toNat + x.val →
      exec (.stRegs x) s = .refused .transferBeyondMemory ∧ exec (.ldRegs x) s = .refused .transferBeyondMemory)

/-- R142, R143: what `Fx55` stored, `Fx65` with the same `I` and the same or a smaller `x` loads back, whatever the
registers held in between. -/
def Obligations.LoadedRegistersAreTheStoredOnes : Prop :=
  ∀ (x z : Reg) (s t u : State), Memory.wf s.mem = true → 0x200 ≤ s.i.toNat → s.i.toNat + x.val ≤ 0xFFF → z ≤ x →
    exec (.stRegs x) s = .next t → u.mem = t.mem → u.i = s.i →
    ∃ w, exec (.ldRegs z) u = .next w ∧ (∀ r : Reg, r ≤ z → w.reg r = s.reg r) ∧
      ∀ r : Reg, z < r → w.reg r = u.reg r

/-- R55, R175: two registers that `Fx55` stored side by side are, for every later step that fetches there, the
instruction word (D25). -/
def Obligations.StoredBytesAreFetched : Prop :=
  ∀ (x j k : Reg) (s t u : State) (i : Instr), Memory.wf s.mem = true → 0x200 ≤ s.i.toNat →
    s.i.toNat + x.val ≤ 0xFFF → k.val = j.val + 1 → k ≤ x → exec (.stRegs x) s = .next t →
    u.mem = t.mem → u.pc.toNat = s.i.toNat + j.val →
    decode u.params.decode59 [s.reg j, s.reg k] = .ok (i, []) →
    step u = exec i { u with pc := u.pc + 2, out := ⟨none, false, false⟩ }

/-- R52: with `P_TRANSFER_POLICY = REJECT` no step and no other operation of the host but `reset()` changes a byte below
`0x200`, the font among them. The spec derives this from R44 and R48. -/
def Obligations.ReservedAreaIsReadOnlyUnderReject : Prop :=
  ∀ (op : HostOp) (s t : State), s.params.transfer = .reject → op ≠ .reset → hostStep op s = .next t →
    ∀ a, a < 0x200 → byteAt t.mem a = byteAt s.mem a

/-! ## Diagnostics, timers, host operations -/

/-- R152: no step faults in a state of the invariant: it goes on to a next state, or, under `WARN` alone, it is the
transfer beyond memory that R131 refuses. -/
def Obligations.StepAlwaysGoesOn : Prop :=
  ∀ s : State, Inv s →
    (∃ t, step s = .next t) ∨
    (step s = .refused .transferBeyondMemory ∧ s.params.transfer = .warn ∧
      ∃ x, (Fetches s (.stRegs x) ∨ Fetches s (.ldRegs x)) ∧ 0xFFF < s.i.toNat + x.val)

/-- R160: `tick_timers()` takes one from each timer that is not 0 and does nothing else, and no instruction decrements a
timer. That among the instructions `DT` changes only by `Fx15` and `ST` only by `Fx18`, each to `V[x]`, is R28, R137 and
R138, whose two rows are from general knowledge (D8, G3, G11; notes/assumptions/9.md and 10.md). -/
def Obligations.TimersMoveOnlyByTicksAndLoads : Prop :=
  (∀ s : State, ∃ t, hostStep .tickTimers s = .next t ∧
    t.dt.toNat = (if s.dt.toNat > 0 then s.dt.toNat - 1 else 0) ∧
    t.st.toNat = (if s.st.toNat > 0 then s.st.toNat - 1 else 0) ∧ SameOutside [.dt, .st] s t) ∧
  (∀ (i : Instr) (s t : State), exec i s = .next t →
    (t.dt ≠ s.dt → ∃ x, i = .ldDtVx x ∧ t.dt = s.reg x) ∧ (t.st ≠ s.st → ∃ x, i = .ldStVx x ∧ t.st = s.reg x))

/-- R29, R154: `set_keys(k)` sets `KEYS` and `force_pc(a)` sets `PC`, and nothing else changes (D17, D26). -/
def Obligations.SetKeysAndForcePcSetOneRegister : Prop :=
  ∀ (k a : Word) (s : State),
    (∃ t, hostStep (.setKeys k) s = .next t ∧ t.keys = k ∧ SameOutside [.keys] s t) ∧
    (∃ t, hostStep (.forcePc a) s = .next t ∧ t.pc = a ∧ SameOutside [.pc] s t)

/-- R171: `load()` copies the ROM, cut to `0xE00` bytes, to `0x200` on, and changes nothing else. That it may be called at
any time is D23. -/
def Obligations.LoadCopiesTheRom : Prop :=
  ∀ (rom : List Byte) (s : State), Memory.wf s.mem = true → ∃ t, hostStep (.load rom) s = .next t ∧
    (∀ a, 0x200 ≤ a → a < 0x200 + min rom.length 0xE00 → rom[a - 0x200]? = some (byteAt t.mem a)) ∧
    (∀ a, a < 0x200 ∨ 0x200 + min rom.length 0xE00 ≤ a → byteAt t.mem a = byteAt s.mem a) ∧
    SameOutside [.mem] s t

/-- R170: `reset()` gives the power-on state whatever preceded it: registers, stack, timers, keys and display 0, `PC` at
`0x200`, the font at `0x100` and every other byte 0. `reset()` at any time is D23. -/
def Obligations.ResetBuildsThePowerOnState : Prop :=
  ∀ s : State, ∃ t, hostStep .reset s = .next t ∧
    (∀ r, t.reg r = 0#8) ∧ t.i = 0#16 ∧ t.pc = 0x200#16 ∧ t.sp = 0 ∧
    t.stack.length = s.params.stackCapacity ∧ (∀ a ∈ t.stack, a = 0#16) ∧
    t.dt = 0#8 ∧ t.st = 0#8 ∧ buzzer t = false ∧ t.keys = 0#16 ∧ (∀ k (h : k < 256), t.fb[k] = 0#8) ∧
    (∀ k (h : k < 80), byteAt t.mem (0x100 + k) = s.params.font[k]) ∧
    (∀ a, a < 0x100 ∨ 0x150 ≤ a → byteAt t.mem a = 0#8) ∧ t.params = s.params

/-- R6: the parameters are fixed for a whole run: no operation of the host and no step changes them. That they are
carried in the state is the model's choice (notes/assumptions/1.md). -/
def Obligations.NoOperationChangesTheParameters : Prop :=
  ∀ (op : HostOp) (s t : State), hostStep op s = .next t → t.params = s.params

/-! ## Which instructions write what -/

/-- R22, R29: among the instructions only `Annn`, `Fx1E` and `Fx29` change `I`, and none changes `KEYS`. -/
def Obligations.OnlyIndexWritersChangeI : Prop :=
  ∀ (i : Instr) (s t : State), exec i s = .next t →
    (t.i ≠ s.i → (∃ addr, i = .ldI addr) ∨ ∃ x, i = .addI x ∨ i = .ldF x) ∧ t.keys = s.keys

/-- R24, R30, R40: among the instructions only `2nnn` changes a stack entry, only `2nnn` and `00EE` the depth, only `00E0`
and `Dxyn` the display, and only `Fx33` and `Fx55` a byte of memory. -/
def Obligations.OnlyTheirWritersChangeStackDisplayMemory : Prop :=
  ∀ (i : Instr) (s t : State), exec i s = .next t →
    (t.stack ≠ s.stack → ∃ addr, i = .call addr) ∧
    (t.sp ≠ s.sp → (∃ addr, i = .call addr) ∨ i = .ret) ∧
    (t.fb ≠ s.fb → i = .cls ∨ ∃ x y n, i = .drw x y n) ∧
    (∀ a, byteAt t.mem a ≠ byteAt s.mem a → ∃ x, i = .ldB x ∨ i = .stRegs x)

/-- R158: an instruction learns of a key only by `Ex9E`, `ExA1` and `Fx0A`: every other one does the same whatever keys
are pressed. For `Cxkk` the two runs agree because both take the draw of the same counter, which is the model's choice
(notes/assumptions/3.md): the statement says that the keys do not enter, not that hardware draws the same byte twice. -/
def Obligations.OnlyKeyInstructionsSeeTheKeys : Prop :=
  ∀ (i : Instr) (s t : State) (k : Word), (∀ x, i ≠ .skp x ∧ i ≠ .sknp x ∧ i ≠ .ldVxK x) →
    exec i s = .next t → exec i (setKeys k s) = .next (setKeys k t)

/-! ## Invariants -/

/-- The reset state meets the invariant and the bounds on `PC` (R22, R23, R27, R170). -/
def Obligations.ResetMeetsTheInvariants : Prop :=
  Inv State.reset ∧ PcBounded State.reset

/-- R22, R27: every step from a state of the invariant leads to one: memory in its canonical form, `I` at most `0xFFF`,
a whole stack within its capacity, legal parameters. -/
def Obligations.StepKeepsMemoryIndexAndStackInBounds : Prop :=
  ∀ s t : State, Inv s → step s = .next t → Inv t

/-- R22, R27: no operation of the host (R4), a reset, a load of any ROM and a step among them, leads out of the invariant, and
`reset()` leads into it for every legal value of the parameters. -/
def Obligations.EveryHostOperationKeepsTheInvariant : Prop :=
  (∀ (op : HostOp) (s t : State), Inv s → hostStep op s = .next t → Inv t) ∧
  (∀ p : Params, p.legal → Inv (resetOp { State.reset with params := p }))

/-- R22, R27: every state a host reaches, from any legal parameters by any operations in any order (R4, R5), meets the
invariant. -/
def Obligations.ReachableStatesMeetTheInvariant : Prop :=
  ∀ s : State, Reachable s → Inv s

/-- R23, R105: no step takes `PC` above `0x10FE` or a return address above `0x1000`. The spec derives the bound. -/
def Obligations.StepKeepsPcAndReturnAddressesBounded : Prop :=
  ∀ s t : State, PcBounded s → step s = .next t → PcBounded t
end

