-- ==== Sys2Proof/Laws/Decode.lean ====
section
/-! SUPPORT. The fields and the patterns of an instruction word as numbers (30_encoding.md R61): what each field is
of a word, what number each pattern is, and so what each field reads from each pattern. -/

namespace Sys2Proof.Laws

open Sys2Proof

/-! ### Fields as numbers -/

theorem toNat_opClass (op : Word) : (opClass op).toNat = op.toNat / 4096 := by
  simp [opClass, Nat.shiftRight_eq_div_pow]; omega

theorem toNat_fieldAddr (op : Word) : (fieldAddr op).toNat = op.toNat % 4096 := by
  simp [fieldAddr]

theorem val_fieldX (op : Word) : (fieldX op).val = op.toNat / 256 % 16 := by
  simp [fieldX, regOfNibble, Nat.shiftRight_eq_div_pow]

theorem val_fieldY (op : Word) : (fieldY op).val = op.toNat / 16 % 16 := by
  simp [fieldY, regOfNibble, Nat.shiftRight_eq_div_pow]

theorem toNat_fieldN (op : Word) : (fieldN op).toNat = op.toNat % 16 := by
  simp [fieldN]

theorem toNat_fieldNN (op : Word) : (fieldNN op).toNat = op.toNat % 256 := by
  simp [fieldNN]

theorem toNat_highByte (op : Word) : (highByte op).toNat = op.toNat / 256 := by
  simp [highByte, Nat.shiftRight_eq_div_pow]; omega

theorem toNat_lowByte (op : Word) : (lowByte op).toNat = op.toNat % 256 := by
  simp [lowByte]

@[simp] theorem toNat_nibbleOfReg (r : Reg) : (nibbleOfReg r).toNat = r.val := rfl

/-! ### Patterns as numbers -/

theorem toNat_append_eq {w v : Nat} (a : BitVec w) (b : BitVec v) :
    (a ++ b).toNat = a.toNat * 2 ^ v + b.toNat := by
  rw [BitVec.toNat_append, ← Nat.shiftLeft_add_eq_or_of_lt b.isLt, Nat.shiftLeft_eq]

theorem toNat_wordOfBytes (b0 b1 : Byte) : (wordOfBytes b0 b1).toNat = b0.toNat * 256 + b1.toNat :=
  toNat_append_eq b0 b1

theorem toNat_wordAddr (c : Nibble) (a : Addr) : (wordAddr c a).toNat = c.toNat * 4096 + a.toNat :=
  toNat_append_eq c a

theorem toNat_wordXKK (c : Nibble) (x : Reg) (kk : Byte) :
    (wordXKK c x kk).toNat = c.toNat * 4096 + x.val * 256 + kk.toNat := by
  have h1 := toNat_append_eq (c ++ nibbleOfReg x) kk
  have h2 := toNat_append_eq c (nibbleOfReg x)
  rw [toNat_nibbleOfReg] at h2
  exact h1.trans (by rw [h2]; omega)

theorem toNat_wordXYN (c : Nibble) (x y : Reg) (n : Nibble) :
    (wordXYN c x y n).toNat = c.toNat * 4096 + x.val * 256 + y.val * 16 + n.toNat := by
  have h1 := toNat_append_eq (c ++ nibbleOfReg x ++ nibbleOfReg y) n
  have h2 := toNat_append_eq (c ++ nibbleOfReg x) (nibbleOfReg y)
  have h3 := toNat_append_eq c (nibbleOfReg x)
  rw [toNat_nibbleOfReg] at h2 h3
  exact h1.trans (by rw [h2, h3]; omega)

/-- The two bytes of a word, joined again, are the word (R60). -/
theorem wordOfBytes_high_low (op : Word) : wordOfBytes (highByte op) (lowByte op) = op := by
  apply BitVec.eq_of_toNat_eq
  rw [toNat_wordOfBytes, toNat_highByte, toNat_lowByte]
  omega

/-! ### Fields of patterns -/

@[simp] theorem opClass_wordAddr (c : Nibble) (a : Addr) : opClass (wordAddr c a) = c := by
  apply BitVec.eq_of_toNat_eq; rw [toNat_opClass, toNat_wordAddr]; omega

@[simp] theorem fieldAddr_wordAddr (c : Nibble) (a : Addr) : fieldAddr (wordAddr c a) = a := by
  apply BitVec.eq_of_toNat_eq; rw [toNat_fieldAddr, toNat_wordAddr]; omega

@[simp] theorem opClass_wordXKK (c : Nibble) (x : Reg) (kk : Byte) : opClass (wordXKK c x kk) = c := by
  apply BitVec.eq_of_toNat_eq; rw [toNat_opClass, toNat_wordXKK]; omega

@[simp] theorem fieldX_wordXKK (c : Nibble) (x : Reg) (kk : Byte) : fieldX (wordXKK c x kk) = x := by
  apply Fin.ext; rw [val_fieldX, toNat_wordXKK]; omega

@[simp] theorem fieldNN_wordXKK (c : Nibble) (x : Reg) (kk : Byte) : fieldNN (wordXKK c x kk) = kk := by
  apply BitVec.eq_of_toNat_eq; rw [toNat_fieldNN, toNat_wordXKK]; omega

@[simp] theorem opClass_wordXYN (c : Nibble) (x y : Reg) (n : Nibble) : opClass (wordXYN c x y n) = c := by
  apply BitVec.eq_of_toNat_eq; rw [toNat_opClass, toNat_wordXYN]; omega

@[simp] theorem fieldX_wordXYN (c : Nibble) (x y : Reg) (n : Nibble) : fieldX (wordXYN c x y n) = x := by
  apply Fin.ext; rw [val_fieldX, toNat_wordXYN]; omega

@[simp] theorem fieldY_wordXYN (c : Nibble) (x y : Reg) (n : Nibble) : fieldY (wordXYN c x y n) = y := by
  apply Fin.ext; rw [val_fieldY, toNat_wordXYN]; omega

@[simp] theorem fieldN_wordXYN (c : Nibble) (x y : Reg) (n : Nibble) : fieldN (wordXYN c x y n) = n := by
  apply BitVec.eq_of_toNat_eq; rw [toNat_fieldN, toNat_wordXYN]; omega

/-! ### The masks of R64 as numbers -/

/-- The mask of a row with no secondary key. -/
theorem toNat_and_F000 (op : Word) : (op &&& 0xF000#16).toNat = op.toNat / 4096 * 4096 := by
  have h : op &&& 0xF000#16 = wordAddr (opClass op) 0#12 := by
    apply BitVec.eq_of_getLsbD_eq
    intro i hi
    unfold wordAddr
    rw [BitVec.getLsbD_and]
    erw [BitVec.getLsbD_append]
    interval_cases i <;> simp [opClass]
  rw [h, toNat_wordAddr, toNat_opClass]; simp

/-- The mask of a row keyed on `n`. -/
theorem toNat_and_F00F (op : Word) :
    (op &&& 0xF00F#16).toNat = op.toNat / 4096 * 4096 + op.toNat % 16 := by
  have h : op &&& 0xF00F#16 = wordXYN (opClass op) 0 0 (fieldN op) := by
    apply BitVec.eq_of_getLsbD_eq
    intro i hi
    unfold wordXYN
    rw [BitVec.getLsbD_and]
    erw [BitVec.getLsbD_append, BitVec.getLsbD_append, BitVec.getLsbD_append]
    interval_cases i <;> simp [opClass, fieldN, nibbleOfReg]
  rw [h, toNat_wordXYN, toNat_opClass, toNat_fieldN]; simp

/-- The mask of a row keyed on `nn`. -/
theorem toNat_and_F0FF (op : Word) :
    (op &&& 0xF0FF#16).toNat = op.toNat / 4096 * 4096 + op.toNat % 256 := by
  have h : op &&& 0xF0FF#16 = wordXKK (opClass op) 0 (fieldNN op) := by
    apply BitVec.eq_of_getLsbD_eq
    intro i hi
    unfold wordXKK
    rw [BitVec.getLsbD_and]
    erw [BitVec.getLsbD_append, BitVec.getLsbD_append]
    interval_cases i <;> simp [opClass, fieldNN, nibbleOfReg]
  rw [h, toNat_wordXKK, toNat_opClass, toNat_fieldNN]; simp

end Sys2Proof.Laws
end

