-- ==== Sys2Proof/Laws/Framebuffer.lean ====
section
/-! SUPPORT. The laws of the framebuffer: what a toggle does to every pixel, and what a sprite row and a whole
sprite do to every pixel and to the collision. -/

namespace Sys2Proof.Laws

open Sys2Proof Sys2Proof.Machine

theorem pixelByte_inj {c c' : Col} {r r' : Row} (h : pixelByte c r = pixelByte c' r') :
    r = r' ∧ c.val / 8 = c'.val / 8 := by
  have hv := congrArg Fin.val h
  simp only [pixelByte] at hv
  have h1 := c.isLt
  have h2 := c'.isLt
  exact ⟨by ext; omega, by omega⟩

theorem getLsbD_bitMask (p q : Nat) (hp : p < 8) (hq : q < 8) : (1#8 <<< p).getLsbD q = decide (q = p) := by
  interval_cases p <;> interval_cases q <;> rfl

/-- A toggle inverts its own pixel and leaves every other pixel alone (R30). -/
theorem pixel_togglePixel (fb : Framebuffer) (c c' : Col) (r r' : Row) :
    pixel (togglePixel fb c r) c' r' = (pixel fb c' r' ^^ decide (c' = c ∧ r' = r)) := by
  have hb : pixelBit c < 8 := by unfold pixelBit; omega
  have hb' : pixelBit c' < 8 := by unfold pixelBit; omega
  by_cases hp : pixelByte c' r' = pixelByte c r
  · obtain ⟨hr, hc⟩ := pixelByte_inj hp
    have hbit : (pixelBit c' = pixelBit c) ↔ (c' = c ∧ r' = r) := by
      unfold pixelBit
      constructor
      · intro h; exact ⟨by ext; omega, hr⟩
      · rintro ⟨rfl, -⟩; rfl
    simp only [pixel, togglePixel, hp, Fin.getElem_fin, Vector.getElem_set_self, BitVec.getLsbD_xor,
      getLsbD_bitMask _ _ hb hb', hbit]
  · have hne : ¬ (c' = c ∧ r' = r) := by rintro ⟨rfl, rfl⟩; exact hp rfl
    have hv : (pixelByte c r).val ≠ (pixelByte c' r').val := fun h => hp (Fin.ext h.symm)
    simp only [pixel, togglePixel, Fin.getElem_fin, Vector.getElem_set_ne _ _ hv, hne, decide_false, Bool.xor_false]

@[simp] theorem pixel_clearFramebuffer (c : Col) (r : Row) : pixel clearFramebuffer c r = false := by
  simp [pixel, clearFramebuffer]

/-- Two displays with the same pixels are the same 256 bytes. -/
theorem framebuffer_ext (a b : Framebuffer) (h : ∀ c r, pixel a c r = pixel b c r) : a = b := by
  apply Vector.ext
  intro k hk
  apply BitVec.eq_of_getLsbD_eq
  intro j hj
  have hc := h ⟨k % 8 * 8 + (7 - j), by omega⟩ ⟨k / 8, by omega⟩
  have hbyte : k / 8 * 8 + (k % 8 * 8 + (7 - j)) / 8 = k := by omega
  have hbit : 7 - (k % 8 * 8 + (7 - j)) % 8 = j := by omega
  simpa only [pixel, pixelByte, pixelBit, Fin.getElem_fin, hbyte, hbit] using hc

/-- Different column offsets of a sprite land on different columns (R120). -/
theorem spriteCol_inj {vx : Byte} {i j : Nat} (hi : i < 8) (hj : j < 8) (h : spriteCol vx i = spriteCol vx j) :
    i = j := by
  have := congrArg Fin.val h
  simp only [spriteCol, Fin.val_ofNat] at this
  omega

/-- Different row offsets of a sprite land on different rows (R120). -/
theorem spriteRow_inj {vy : Byte} {i j : Nat} (hi : i < 32) (hj : j < 32) (h : spriteRow vy i = spriteRow vy j) :
    i = j := by
  have := congrArg Fin.val h
  simp only [spriteRow, Fin.val_ofNat] at this
  omega

/-- What the columns `cs` of one sprite row do to every pixel and to the collision (R121). -/
theorem drawCols_spec (vx : Byte) (row : Row) (sb : Byte) (cs : List Nat) (hlt : ∀ j ∈ cs, j < 8)
    (hnd : cs.Nodup) (k : Canvas) :
    (∀ c r, pixel (drawCols k vx row sb cs).fb c r =
      (pixel k.fb c r ^^ decide (r = row ∧ ∃ j ∈ cs, spriteBit sb j = true ∧ c = spriteCol vx j))) ∧
    (drawCols k vx row sb cs).collision =
      (k.collision || decide (∃ j ∈ cs, spriteBit sb j = true ∧ pixel k.fb (spriteCol vx j) row = true)) := by
  induction cs generalizing k with
  | nil => simp [drawCols]
  | cons j cs ih =>
    have hj : j < 8 := hlt j (by simp)
    have hlt' : ∀ i ∈ cs, i < 8 := fun i hi => hlt i (by simp [hi])
    obtain ⟨hnot, hnd'⟩ := List.nodup_cons.mp hnd
    have hdiff : ∀ i ∈ cs, spriteCol vx i ≠ spriteCol vx j := fun i hi h =>
      hnot (spriteCol_inj (hlt' i hi) hj h ▸ hi)
    by_cases hs : spriteBit sb j = true
    · have hcol : ∀ i ∈ cs, pixel (togglePixel k.fb (spriteCol vx j) row) (spriteCol vx i) row =
          pixel k.fb (spriteCol vx i) row := by
        intro i hi; simp [pixel_togglePixel, hdiff i hi]
      simp only [drawCols, hs, if_true]
      obtain ⟨hp, hcl⟩ := ih hlt' hnd' (plot k (spriteCol vx j) row)
      refine ⟨fun c r => ?_, ?_⟩
      · rw [hp c r]
        simp only [plot, pixel_togglePixel]
        by_cases hc : c = spriteCol vx j
        · subst hc
          have : ¬ ∃ i ∈ cs, spriteBit sb i = true ∧ spriteCol vx j = spriteCol vx i := by
            rintro ⟨i, hi, -, h⟩; exact hdiff i hi h.symm
          simp [this, hs]
        · simp [hc]
      · rw [hcl, Bool.eq_iff_iff, Bool.or_eq_true, Bool.or_eq_true, decide_eq_true_iff, decide_eq_true_iff]
        simp only [plot, Bool.or_eq_true, List.mem_cons]
        constructor
        · rintro ((h | h) | ⟨i, hi, h1, h2⟩)
          · exact .inl h
          · exact .inr ⟨j, .inl rfl, hs, h⟩
          · exact .inr ⟨i, .inr hi, h1, (hcol i hi) ▸ h2⟩
        · rintro (h | ⟨i, (rfl | hi), h1, h2⟩)
          · exact .inl (.inl h)
          · exact .inl (.inr h2)
          · exact .inr ⟨i, hi, h1, (hcol i hi).symm ▸ h2⟩
    · simp only [drawCols, hs]
      obtain ⟨hp, hcl⟩ := ih hlt' hnd' k
      exact ⟨fun c r => by simp [hp c r, hs], by simp [hcl, hs]⟩

/-- A sprite, its first row at row offset `r0`, covers a pixel: one of its set bits lands there (R120). -/
def Covers (vx vy : Byte) (r0 : Nat) (sprite : List Byte) (c : Col) (r : Row) : Prop :=
  ∃ k j, k < sprite.length ∧ j < 8 ∧ spriteBit (sprite.getD k 0) j = true ∧ c = spriteCol vx j ∧
    r = spriteRow vy (r0 + k)

open Classical in
/-- What a whole sprite does to every pixel and to the collision (R121): the covered pixels are inverted, and the
collision is set iff a covered pixel was set. -/
theorem drawRows_spec (vx vy : Byte) (sprite : List Byte) (r0 : Nat) (hlen : r0 + sprite.length ≤ 32) (k : Canvas) :
    (∀ c r, pixel (drawRows k vx vy r0 sprite).fb c r =
      (pixel k.fb c r ^^ decide (Covers vx vy r0 sprite c r))) ∧
    ((drawRows k vx vy r0 sprite).collision = true ↔
      k.collision = true ∨ ∃ c r, Covers vx vy r0 sprite c r ∧ pixel k.fb c r = true) := by
  induction sprite generalizing k r0 with
  | nil => simp [drawRows, Covers]
  | cons sb sbs ih =>
    simp only [List.length_cons] at hlen
    have hcols := drawCols_spec vx (spriteRow vy r0) sb (List.range 8)
      (fun j hj => List.mem_range.mp hj) List.nodup_range k
    obtain ⟨hp, hc⟩ := ih (r0 + 1) (by omega) (drawCols k vx (spriteRow vy r0) sb (List.range 8))
    have hsplit : ∀ c r, Covers vx vy r0 (sb :: sbs) c r ↔
        (r = spriteRow vy r0 ∧ ∃ j ∈ List.range 8, spriteBit sb j = true ∧ c = spriteCol vx j) ∨
        Covers vx vy (r0 + 1) sbs c r := by
      intro c r
      constructor
      · rintro ⟨i, j, hi, hj, hb, hcj, hr⟩
        cases i with
        | zero => exact .inl ⟨by simpa using hr, j, List.mem_range.mpr hj, by simpa using hb, hcj⟩
        | succ i =>
          refine .inr ⟨i, j, by simpa using hi, hj, by simpa using hb, hcj, ?_⟩
          rw [hr]; congr 1; omega
      · rintro (⟨hr, j, hj, hb, hcj⟩ | ⟨i, j, hi, hj, hb, hcj, hr⟩)
        · exact ⟨0, j, by simp, List.mem_range.mp hj, by simpa using hb, hcj, by simpa using hr⟩
        · refine ⟨i + 1, j, by simpa using hi, hj, by simpa using hb, hcj, ?_⟩
          rw [hr]; congr 1; omega
    have hdisj : ∀ c, ¬ Covers vx vy (r0 + 1) sbs c (spriteRow vy r0) := by
      rintro c ⟨i, j, hi, -, -, -, hr⟩
      have := spriteRow_inj (by omega) (by omega) hr
      omega
    refine ⟨fun c r => ?_, ?_⟩
    · simp only [drawRows]
      rw [hp c r, hcols.1 c r]
      by_cases hr : r = spriteRow vy r0
      · subst hr; simp [hsplit, hdisj c]
      · simp [hsplit, hr]
    · simp only [drawRows]
      rw [hc, hcols.2]
      simp only [Bool.or_eq_true, decide_eq_true_eq, hsplit]
      constructor
      · rintro ((h | ⟨j, hj, h1, h2⟩) | ⟨c, r, h1, h2⟩)
        · exact .inl h
        · exact .inr ⟨_, _, .inl ⟨rfl, j, hj, h1, rfl⟩, h2⟩
        · refine .inr ⟨c, r, .inr h1, ?_⟩
          rw [hcols.1 c r] at h2
          have hr : r ≠ spriteRow vy r0 := by rintro rfl; exact hdisj c h1
          simpa [hr] using h2
      · rintro (h | ⟨c, r, (⟨rfl, j, hj, h1, rfl⟩ | h1), h2⟩)
        · exact .inl (.inl h)
        · exact .inl (.inr ⟨j, hj, h1, h2⟩)
        · refine .inr ⟨c, r, h1, ?_⟩
          rw [hcols.1 c r]
          have hr : r ≠ spriteRow vy r0 := by rintro rfl; exact hdisj c h1
          simpa [hr] using h2

end Sys2Proof.Laws
end

