-- ==== Sys2Proof/Laws/Memory.lean ====
section
/-! SUPPORT. The laws of memory: a byte written reads back, every other byte reads as before, and every operation
keeps the canonical form. -/

namespace Sys2Proof.Laws

open Sys2Proof Sys2Proof.Machine

theorem byteAt_consCell (a b : Nat) (v : Byte) (rest : Memory) (h : v = resetByte a → byteAt rest a = v) :
    byteAt (consCell a v rest) b = if b = a then v else byteAt rest b := by
  unfold consCell
  split
  · next hv =>
    by_cases hb : b = a
    · subst hb; simp [h hv]
    · simp [hb]
  · rfl

theorem wfFrom_mono {lo lo' : Nat} {m : Memory} (h : wfFrom lo m = true) (hl : lo' ≤ lo) : wfFrom lo' m = true := by
  cases m with
  | nil => rfl
  | cons c rest =>
    simp only [wfFrom, Bool.and_eq_true, decide_eq_true_eq] at h ⊢
    exact ⟨⟨⟨le_trans hl h.1.1.1, h.1.1.2⟩, h.1.2⟩, h.2⟩

/-- An address below every listed one reads as at reset. -/
theorem byteAt_below {lo a : Nat} {m : Memory} (h : wfFrom lo m = true) (ha : a < lo) : byteAt m a = resetByte a := by
  induction m generalizing lo with
  | nil => rfl
  | cons c rest ih =>
    simp only [wfFrom, Bool.and_eq_true, decide_eq_true_eq] at h
    have hne : a ≠ c.1 := by omega
    simp only [byteAt, hne, if_false]
    exact ih h.2 (by omega)

/-- Read after write, in the canonical form. -/
theorem byteAt_writeByte {lo : Nat} {m : Memory} (h : wfFrom lo m = true) (a b : Nat) (v : Byte) :
    byteAt (writeByte m a v) b = if b = a then v else byteAt m b := by
  induction m generalizing lo with
  | nil => exact byteAt_consCell a b v [] (fun hv => hv.symm)
  | cons c rest ih =>
    obtain ⟨d, w⟩ := c
    simp only [wfFrom, Bool.and_eq_true, decide_eq_true_eq] at h
    simp only [writeByte]
    split
    · next hlt =>
      refine byteAt_consCell a b v _ (fun hv => ?_)
      rw [hv]
      simp only [byteAt, if_neg (Nat.ne_of_lt hlt)]
      exact byteAt_below h.2 (by omega)
    · split
      · next hge heq =>
        subst heq
        rw [byteAt_consCell a b v rest (fun hv => by rw [hv]; exact byteAt_below h.2 (by omega))]
        by_cases hb : b = a <;> simp [byteAt, hb]
      · next hge hne =>
        simp only [byteAt, ih h.2]
        by_cases hb : b = d
        · have : b ≠ a := by omega
          simp [hb, show ¬ d = a by omega]
        · simp [hb]

/-- A write leaves every other byte alone, in every memory. -/
theorem byteAt_writeByte_ne (m : Memory) (a b : Nat) (v : Byte) (hne : b ≠ a) :
    byteAt (writeByte m a v) b = byteAt m b := by
  have cons : ∀ rest : Memory, byteAt (consCell a v rest) b = byteAt rest b := by
    intro rest
    unfold consCell
    split
    · rfl
    · simp [byteAt, hne]
  induction m with
  | nil => exact cons []
  | cons c rest ih =>
    simp only [writeByte]
    split
    · exact cons _
    · split
      · next heq => rw [cons]; simp [byteAt, show b ≠ c.1 by omega]
      · simp [byteAt, ih]

theorem wfFrom_consCell {lo a : Nat} {v : Byte} {rest : Memory} (hlo : lo ≤ a) (ha : a < memorySize)
    (h : wfFrom (a + 1) rest = true) : wfFrom lo (consCell a v rest) = true := by
  unfold consCell
  split
  · exact wfFrom_mono h (by omega)
  · next hv => simp [wfFrom, hlo, ha, hv, h]

theorem wfFrom_writeByte {lo : Nat} {m : Memory} (h : wfFrom lo m = true) (a : Nat) (v : Byte) (hlo : lo ≤ a)
    (ha : a < memorySize) : wfFrom lo (writeByte m a v) = true := by
  induction m generalizing lo with
  | nil => exact wfFrom_consCell hlo ha rfl
  | cons c rest ih =>
    obtain ⟨d, w⟩ := c
    simp only [writeByte]
    split
    · next hlt =>
      simp only [wfFrom, Bool.and_eq_true, decide_eq_true_eq] at h
      exact wfFrom_consCell hlo ha (by simp only [wfFrom, Bool.and_eq_true, decide_eq_true_eq]
                                       exact ⟨⟨⟨by omega, h.1.1.2⟩, h.1.2⟩, h.2⟩)
    · simp only [wfFrom, Bool.and_eq_true, decide_eq_true_eq] at h
      split
      · next hge heq => subst heq; exact wfFrom_consCell hlo ha h.2
      · next hge hne =>
        simp only [wfFrom, Bool.and_eq_true, decide_eq_true_eq]
        exact ⟨h.1, ih h.2 (by omega)⟩

/-- A one-byte write keeps the canonical form. -/
theorem wf_writeByte {m : Memory} (h : Memory.wf m = true) (a : Nat) (v : Byte) (ha : a < memorySize) :
    Memory.wf (writeByte m a v) = true := wfFrom_writeByte h a v (Nat.zero_le a) ha

/-- A store of several bytes keeps the canonical form. -/
theorem wf_writeBytes {m : Memory} (h : Memory.wf m = true) (base : Nat) (bs : List Byte)
    (hb : base + bs.length ≤ memorySize) : Memory.wf (writeBytes m base bs) = true := by
  induction bs generalizing m base with
  | nil => exact h
  | cons b bs ih =>
    simp only [List.length_cons] at hb
    exact ih (wf_writeByte h base b (by omega)) (base + 1) (by omega)

/-- What a store of several bytes leaves at each address: the stored byte inside, the old byte outside. -/
theorem byteAt_writeBytes {m : Memory} (h : Memory.wf m = true) (base : Nat) (bs : List Byte) (a : Nat)
    (hb : base + bs.length ≤ memorySize) :
    byteAt (writeBytes m base bs) a =
      if base ≤ a ∧ a < base + bs.length then bs.getD (a - base) 0 else byteAt m a := by
  induction bs generalizing m base with
  | nil => simp [writeBytes, show ¬ (base ≤ a ∧ a < base) by omega]
  | cons b bs ih =>
    simp only [List.length_cons] at hb
    simp only [writeBytes]
    rw [ih (wf_writeByte h base b (by omega)) (base + 1) (by omega), byteAt_writeByte h]
    simp only [List.length_cons]
    by_cases hab : a = base
    · subst hab
      simp [show a ≤ a ∧ a < a + (bs.length + 1) by omega]
    · by_cases hin : base + 1 ≤ a ∧ a < base + 1 + bs.length
      · have h1 : base ≤ a ∧ a < base + (bs.length + 1) := by omega
        obtain ⟨k, hk⟩ : ∃ k, a - base = k + 1 := ⟨a - base - 1, by omega⟩
        have h2 : a - (base + 1) = k := by omega
        simp [hin, h1, hk, h2]
      · have h1 : ¬ (base ≤ a ∧ a < base + (bs.length + 1)) := by omega
        rw [if_neg hin, if_neg h1, if_neg hab]

/-- A store of several bytes leaves every byte outside it alone, in every memory. -/
theorem byteAt_writeBytes_outside (m : Memory) (base : Nat) (bs : List Byte) (a : Nat)
    (ha : a < base ∨ base + bs.length ≤ a) : byteAt (writeBytes m base bs) a = byteAt m a := by
  induction bs generalizing m base with
  | nil => rfl
  | cons b bs ih =>
    simp only [List.length_cons] at ha
    simp only [writeBytes]
    rw [ih (writeByte m base b) (base + 1) (by omega), byteAt_writeByte_ne m base a b (by omega)]

@[simp] theorem length_bytesFrom (m : Memory) (base len : Nat) : (bytesFrom m base len).length = len := by
  simp [bytesFrom]

/-- The `k`-th byte of a range read. -/
theorem getD_bytesFrom (m : Memory) (base len k : Nat) (d : Byte) :
    (bytesFrom m base len).getD k d = if k < len then byteAt m (base + k) else d := by
  by_cases h : k < len
  · simp [bytesFrom, List.getD_eq_getElem?_getD, h]
  · simp [bytesFrom, List.getD_eq_getElem?_getD, h]

/-- `MemRead` inside its domain. -/
theorem memRead_inside (m : Memory) (base len : Nat) (h : base + len ≤ memorySize) :
    memRead m base len = some (bytesFrom m base len) := by simp [memRead, h]

/-- `MemWrite` inside its domain. -/
theorem memWrite_inside (m : Memory) (base : Nat) (bs : List Byte) (h : base + bs.length ≤ memorySize) :
    memWrite m base bs = some (writeBytes m base bs) := by simp [memWrite, h]

/-- `MemWrite` keeps the canonical form whenever it answers a memory. -/
theorem wf_memWrite {m m' : Memory} (h : Memory.wf m = true) (base : Nat) (bs : List Byte)
    (hw : memWrite m base bs = some m') : Memory.wf m' = true := by
  unfold memWrite at hw
  split at hw
  · next hb => cases hw; exact wf_writeBytes h base bs hb
  · cases hw

end Sys2Proof.Laws
end

