-- ==== Sys2Proof/Laws/State.lean ====
section
/-! SUPPORT. One lemma per field per update of the state, each true by `rfl`, so that no later proof unfolds a
record update; and what reading a register gives after each update. -/

namespace Sys2Proof.Laws

open Sys2Proof Sys2Proof.Machine

/-! ### setReg -/

@[simp] theorem setReg_v (s : State) (r : Reg) (b : Byte) : (s.setReg r b).v = s.v.set r b := rfl
@[simp] theorem setReg_i (s : State) (r : Reg) (b : Byte) : (s.setReg r b).i = s.i := rfl
@[simp] theorem setReg_pc (s : State) (r : Reg) (b : Byte) : (s.setReg r b).pc = s.pc := rfl
@[simp] theorem setReg_sp (s : State) (r : Reg) (b : Byte) : (s.setReg r b).sp = s.sp := rfl
@[simp] theorem setReg_stack (s : State) (r : Reg) (b : Byte) : (s.setReg r b).stack = s.stack := rfl
@[simp] theorem setReg_dt (s : State) (r : Reg) (b : Byte) : (s.setReg r b).dt = s.dt := rfl
@[simp] theorem setReg_st (s : State) (r : Reg) (b : Byte) : (s.setReg r b).st = s.st := rfl
@[simp] theorem setReg_keys (s : State) (r : Reg) (b : Byte) : (s.setReg r b).keys = s.keys := rfl
@[simp] theorem setReg_fb (s : State) (r : Reg) (b : Byte) : (s.setReg r b).fb = s.fb := rfl
@[simp] theorem setReg_mem (s : State) (r : Reg) (b : Byte) : (s.setReg r b).mem = s.mem := rfl
@[simp] theorem setReg_params (s : State) (r : Reg) (b : Byte) : (s.setReg r b).params = s.params := rfl
@[simp] theorem setReg_draws (s : State) (r : Reg) (b : Byte) : (s.setReg r b).draws = s.draws := rfl
@[simp] theorem setReg_out (s : State) (r : Reg) (b : Byte) : (s.setReg r b).out = s.out := rfl

/-! ### setI -/

@[simp] theorem setI_v (s : State) (a : Word) : (s.setI a).v = s.v := rfl
@[simp] theorem setI_i (s : State) (a : Word) : (s.setI a).i = a := rfl
@[simp] theorem setI_pc (s : State) (a : Word) : (s.setI a).pc = s.pc := rfl
@[simp] theorem setI_sp (s : State) (a : Word) : (s.setI a).sp = s.sp := rfl
@[simp] theorem setI_stack (s : State) (a : Word) : (s.setI a).stack = s.stack := rfl
@[simp] theorem setI_dt (s : State) (a : Word) : (s.setI a).dt = s.dt := rfl
@[simp] theorem setI_st (s : State) (a : Word) : (s.setI a).st = s.st := rfl
@[simp] theorem setI_keys (s : State) (a : Word) : (s.setI a).keys = s.keys := rfl
@[simp] theorem setI_fb (s : State) (a : Word) : (s.setI a).fb = s.fb := rfl
@[simp] theorem setI_mem (s : State) (a : Word) : (s.setI a).mem = s.mem := rfl
@[simp] theorem setI_params (s : State) (a : Word) : (s.setI a).params = s.params := rfl
@[simp] theorem setI_draws (s : State) (a : Word) : (s.setI a).draws = s.draws := rfl
@[simp] theorem setI_out (s : State) (a : Word) : (s.setI a).out = s.out := rfl
@[simp] theorem setI_reg (s : State) (a : Word) (q : Reg) : (s.setI a).reg q = s.reg q := rfl

/-! ### setPc -/

@[simp] theorem setPc_v (s : State) (a : Word) : (s.setPc a).v = s.v := rfl
@[simp] theorem setPc_i (s : State) (a : Word) : (s.setPc a).i = s.i := rfl
@[simp] theorem setPc_pc (s : State) (a : Word) : (s.setPc a).pc = a := rfl
@[simp] theorem setPc_sp (s : State) (a : Word) : (s.setPc a).sp = s.sp := rfl
@[simp] theorem setPc_stack (s : State) (a : Word) : (s.setPc a).stack = s.stack := rfl
@[simp] theorem setPc_dt (s : State) (a : Word) : (s.setPc a).dt = s.dt := rfl
@[simp] theorem setPc_st (s : State) (a : Word) : (s.setPc a).st = s.st := rfl
@[simp] theorem setPc_keys (s : State) (a : Word) : (s.setPc a).keys = s.keys := rfl
@[simp] theorem setPc_fb (s : State) (a : Word) : (s.setPc a).fb = s.fb := rfl
@[simp] theorem setPc_mem (s : State) (a : Word) : (s.setPc a).mem = s.mem := rfl
@[simp] theorem setPc_params (s : State) (a : Word) : (s.setPc a).params = s.params := rfl
@[simp] theorem setPc_draws (s : State) (a : Word) : (s.setPc a).draws = s.draws := rfl
@[simp] theorem setPc_out (s : State) (a : Word) : (s.setPc a).out = s.out := rfl
@[simp] theorem setPc_reg (s : State) (a : Word) (q : Reg) : (s.setPc a).reg q = s.reg q := rfl

/-! ### setDiag -/

@[simp] theorem setDiag_v (s : State) (d : Diagnostic) : (s.setDiag d).v = s.v := rfl
@[simp] theorem setDiag_i (s : State) (d : Diagnostic) : (s.setDiag d).i = s.i := rfl
@[simp] theorem setDiag_pc (s : State) (d : Diagnostic) : (s.setDiag d).pc = s.pc := rfl
@[simp] theorem setDiag_sp (s : State) (d : Diagnostic) : (s.setDiag d).sp = s.sp := rfl
@[simp] theorem setDiag_stack (s : State) (d : Diagnostic) : (s.setDiag d).stack = s.stack := rfl
@[simp] theorem setDiag_dt (s : State) (d : Diagnostic) : (s.setDiag d).dt = s.dt := rfl
@[simp] theorem setDiag_st (s : State) (d : Diagnostic) : (s.setDiag d).st = s.st := rfl
@[simp] theorem setDiag_keys (s : State) (d : Diagnostic) : (s.setDiag d).keys = s.keys := rfl
@[simp] theorem setDiag_fb (s : State) (d : Diagnostic) : (s.setDiag d).fb = s.fb := rfl
@[simp] theorem setDiag_mem (s : State) (d : Diagnostic) : (s.setDiag d).mem = s.mem := rfl
@[simp] theorem setDiag_params (s : State) (d : Diagnostic) : (s.setDiag d).params = s.params := rfl
@[simp] theorem setDiag_draws (s : State) (d : Diagnostic) : (s.setDiag d).draws = s.draws := rfl
@[simp] theorem setDiag_out (s : State) (d : Diagnostic) : (s.setDiag d).out = { s.out with diag := some d } := rfl
@[simp] theorem setDiag_reg (s : State) (d : Diagnostic) (q : Reg) : (s.setDiag d).reg q = s.reg q := rfl

/-! ### warn -/

@[simp] theorem warn_v (s : State) (k : DiagKind) (n : Instr) : (warn k n s).v = s.v := rfl
@[simp] theorem warn_i (s : State) (k : DiagKind) (n : Instr) : (warn k n s).i = s.i := rfl
@[simp] theorem warn_pc (s : State) (k : DiagKind) (n : Instr) : (warn k n s).pc = s.pc := rfl
@[simp] theorem warn_sp (s : State) (k : DiagKind) (n : Instr) : (warn k n s).sp = s.sp := rfl
@[simp] theorem warn_stack (s : State) (k : DiagKind) (n : Instr) : (warn k n s).stack = s.stack := rfl
@[simp] theorem warn_dt (s : State) (k : DiagKind) (n : Instr) : (warn k n s).dt = s.dt := rfl
@[simp] theorem warn_st (s : State) (k : DiagKind) (n : Instr) : (warn k n s).st = s.st := rfl
@[simp] theorem warn_keys (s : State) (k : DiagKind) (n : Instr) : (warn k n s).keys = s.keys := rfl
@[simp] theorem warn_fb (s : State) (k : DiagKind) (n : Instr) : (warn k n s).fb = s.fb := rfl
@[simp] theorem warn_mem (s : State) (k : DiagKind) (n : Instr) : (warn k n s).mem = s.mem := rfl
@[simp] theorem warn_params (s : State) (k : DiagKind) (n : Instr) : (warn k n s).params = s.params := rfl
@[simp] theorem warn_draws (s : State) (k : DiagKind) (n : Instr) : (warn k n s).draws = s.draws := rfl
@[simp] theorem warn_out (s : State) (k : DiagKind) (n : Instr) : (warn k n s).out = { s.out with diag := some ⟨k, some (encode n), s.pcInst⟩ } := rfl
@[simp] theorem warn_reg (s : State) (k : DiagKind) (n : Instr) (q : Reg) : (warn k n s).reg q = s.reg q := rfl

/-! ### notifyDisplay -/

@[simp] theorem notifyDisplay_v (s : State) : s.notifyDisplay.v = s.v := rfl
@[simp] theorem notifyDisplay_i (s : State) : s.notifyDisplay.i = s.i := rfl
@[simp] theorem notifyDisplay_pc (s : State) : s.notifyDisplay.pc = s.pc := rfl
@[simp] theorem notifyDisplay_sp (s : State) : s.notifyDisplay.sp = s.sp := rfl
@[simp] theorem notifyDisplay_stack (s : State) : s.notifyDisplay.stack = s.stack := rfl
@[simp] theorem notifyDisplay_dt (s : State) : s.notifyDisplay.dt = s.dt := rfl
@[simp] theorem notifyDisplay_st (s : State) : s.notifyDisplay.st = s.st := rfl
@[simp] theorem notifyDisplay_keys (s : State) : s.notifyDisplay.keys = s.keys := rfl
@[simp] theorem notifyDisplay_fb (s : State) : s.notifyDisplay.fb = s.fb := rfl
@[simp] theorem notifyDisplay_mem (s : State) : s.notifyDisplay.mem = s.mem := rfl
@[simp] theorem notifyDisplay_params (s : State) : s.notifyDisplay.params = s.params := rfl
@[simp] theorem notifyDisplay_draws (s : State) : s.notifyDisplay.draws = s.draws := rfl
@[simp] theorem notifyDisplay_out (s : State) : s.notifyDisplay.out = { s.out with displayChanged := true } := rfl
@[simp] theorem notifyDisplay_reg (s : State) (q : Reg) : s.notifyDisplay.reg q = s.reg q := rfl

/-! ### notifyAwaitingKey -/

@[simp] theorem notifyAwaitingKey_v (s : State) : s.notifyAwaitingKey.v = s.v := rfl
@[simp] theorem notifyAwaitingKey_i (s : State) : s.notifyAwaitingKey.i = s.i := rfl
@[simp] theorem notifyAwaitingKey_pc (s : State) : s.notifyAwaitingKey.pc = s.pc := rfl
@[simp] theorem notifyAwaitingKey_sp (s : State) : s.notifyAwaitingKey.sp = s.sp := rfl
@[simp] theorem notifyAwaitingKey_stack (s : State) : s.notifyAwaitingKey.stack = s.stack := rfl
@[simp] theorem notifyAwaitingKey_dt (s : State) : s.notifyAwaitingKey.dt = s.dt := rfl
@[simp] theorem notifyAwaitingKey_st (s : State) : s.notifyAwaitingKey.st = s.st := rfl
@[simp] theorem notifyAwaitingKey_keys (s : State) : s.notifyAwaitingKey.keys = s.keys := rfl
@[simp] theorem notifyAwaitingKey_fb (s : State) : s.notifyAwaitingKey.fb = s.fb := rfl
@[simp] theorem notifyAwaitingKey_mem (s : State) : s.notifyAwaitingKey.mem = s.mem := rfl
@[simp] theorem notifyAwaitingKey_params (s : State) : s.notifyAwaitingKey.params = s.params := rfl
@[simp] theorem notifyAwaitingKey_draws (s : State) : s.notifyAwaitingKey.draws = s.draws := rfl
@[simp] theorem notifyAwaitingKey_out (s : State) : s.notifyAwaitingKey.out = { s.out with awaitingKey := true } := rfl
@[simp] theorem notifyAwaitingKey_reg (s : State) (q : Reg) : s.notifyAwaitingKey.reg q = s.reg q := rfl

/-! ### beginStep -/

@[simp] theorem beginStep_v (s : State) : (beginStep s).v = s.v := rfl
@[simp] theorem beginStep_i (s : State) : (beginStep s).i = s.i := rfl
@[simp] theorem beginStep_pc (s : State) : (beginStep s).pc = s.pc := rfl
@[simp] theorem beginStep_sp (s : State) : (beginStep s).sp = s.sp := rfl
@[simp] theorem beginStep_stack (s : State) : (beginStep s).stack = s.stack := rfl
@[simp] theorem beginStep_dt (s : State) : (beginStep s).dt = s.dt := rfl
@[simp] theorem beginStep_st (s : State) : (beginStep s).st = s.st := rfl
@[simp] theorem beginStep_keys (s : State) : (beginStep s).keys = s.keys := rfl
@[simp] theorem beginStep_fb (s : State) : (beginStep s).fb = s.fb := rfl
@[simp] theorem beginStep_mem (s : State) : (beginStep s).mem = s.mem := rfl
@[simp] theorem beginStep_params (s : State) : (beginStep s).params = s.params := rfl
@[simp] theorem beginStep_draws (s : State) : (beginStep s).draws = s.draws := rfl
@[simp] theorem beginStep_out (s : State) : (beginStep s).out = StepOutcome.none := rfl
@[simp] theorem beginStep_reg (s : State) (q : Reg) : (beginStep s).reg q = s.reg q := rfl

/-! ### advance -/

@[simp] theorem advance_v (s : State) : (advance s).v = s.v := rfl
@[simp] theorem advance_i (s : State) : (advance s).i = s.i := rfl
@[simp] theorem advance_pc (s : State) : (advance s).pc = s.pc + 2 := rfl
@[simp] theorem advance_sp (s : State) : (advance s).sp = s.sp := rfl
@[simp] theorem advance_stack (s : State) : (advance s).stack = s.stack := rfl
@[simp] theorem advance_dt (s : State) : (advance s).dt = s.dt := rfl
@[simp] theorem advance_st (s : State) : (advance s).st = s.st := rfl
@[simp] theorem advance_keys (s : State) : (advance s).keys = s.keys := rfl
@[simp] theorem advance_fb (s : State) : (advance s).fb = s.fb := rfl
@[simp] theorem advance_mem (s : State) : (advance s).mem = s.mem := rfl
@[simp] theorem advance_params (s : State) : (advance s).params = s.params := rfl
@[simp] theorem advance_draws (s : State) : (advance s).draws = s.draws := rfl
@[simp] theorem advance_out (s : State) : (advance s).out = s.out := rfl
@[simp] theorem advance_reg (s : State) (q : Reg) : (advance s).reg q = s.reg q := rfl

/-! ### postFetch -/

@[simp] theorem postFetch_v (s : State) : (postFetch s).v = s.v := rfl
@[simp] theorem postFetch_i (s : State) : (postFetch s).i = s.i := rfl
@[simp] theorem postFetch_pc (s : State) : (postFetch s).pc = s.pc + 2 := rfl
@[simp] theorem postFetch_sp (s : State) : (postFetch s).sp = s.sp := rfl
@[simp] theorem postFetch_stack (s : State) : (postFetch s).stack = s.stack := rfl
@[simp] theorem postFetch_dt (s : State) : (postFetch s).dt = s.dt := rfl
@[simp] theorem postFetch_st (s : State) : (postFetch s).st = s.st := rfl
@[simp] theorem postFetch_keys (s : State) : (postFetch s).keys = s.keys := rfl
@[simp] theorem postFetch_fb (s : State) : (postFetch s).fb = s.fb := rfl
@[simp] theorem postFetch_mem (s : State) : (postFetch s).mem = s.mem := rfl
@[simp] theorem postFetch_params (s : State) : (postFetch s).params = s.params := rfl
@[simp] theorem postFetch_draws (s : State) : (postFetch s).draws = s.draws := rfl
@[simp] theorem postFetch_out (s : State) : (postFetch s).out = StepOutcome.none := rfl
@[simp] theorem postFetch_reg (s : State) (q : Reg) : (postFetch s).reg q = s.reg q := rfl

/-! ### reportPcOutOfRange -/

@[simp] theorem reportPcOutOfRange_v (s : State) : (reportPcOutOfRange s).v = s.v := rfl
@[simp] theorem reportPcOutOfRange_i (s : State) : (reportPcOutOfRange s).i = s.i := rfl
@[simp] theorem reportPcOutOfRange_pc (s : State) : (reportPcOutOfRange s).pc = s.pc := rfl
@[simp] theorem reportPcOutOfRange_sp (s : State) : (reportPcOutOfRange s).sp = s.sp := rfl
@[simp] theorem reportPcOutOfRange_stack (s : State) : (reportPcOutOfRange s).stack = s.stack := rfl
@[simp] theorem reportPcOutOfRange_dt (s : State) : (reportPcOutOfRange s).dt = s.dt := rfl
@[simp] theorem reportPcOutOfRange_st (s : State) : (reportPcOutOfRange s).st = s.st := rfl
@[simp] theorem reportPcOutOfRange_keys (s : State) : (reportPcOutOfRange s).keys = s.keys := rfl
@[simp] theorem reportPcOutOfRange_fb (s : State) : (reportPcOutOfRange s).fb = s.fb := rfl
@[simp] theorem reportPcOutOfRange_mem (s : State) : (reportPcOutOfRange s).mem = s.mem := rfl
@[simp] theorem reportPcOutOfRange_params (s : State) : (reportPcOutOfRange s).params = s.params := rfl
@[simp] theorem reportPcOutOfRange_draws (s : State) : (reportPcOutOfRange s).draws = s.draws := rfl
@[simp] theorem reportPcOutOfRange_out (s : State) : (reportPcOutOfRange s).out = { s.out with diag := some ⟨.programCounterOutOfRange, none, s.pc⟩ } := rfl
@[simp] theorem reportPcOutOfRange_reg (s : State) (q : Reg) : (reportPcOutOfRange s).reg q = s.reg q := rfl

/-! ### reportUnknown -/

@[simp] theorem reportUnknown_v (s : State) (op : Word) : (reportUnknown op s).v = s.v := rfl
@[simp] theorem reportUnknown_i (s : State) (op : Word) : (reportUnknown op s).i = s.i := rfl
@[simp] theorem reportUnknown_pc (s : State) (op : Word) : (reportUnknown op s).pc = s.pc := rfl
@[simp] theorem reportUnknown_sp (s : State) (op : Word) : (reportUnknown op s).sp = s.sp := rfl
@[simp] theorem reportUnknown_stack (s : State) (op : Word) : (reportUnknown op s).stack = s.stack := rfl
@[simp] theorem reportUnknown_dt (s : State) (op : Word) : (reportUnknown op s).dt = s.dt := rfl
@[simp] theorem reportUnknown_st (s : State) (op : Word) : (reportUnknown op s).st = s.st := rfl
@[simp] theorem reportUnknown_keys (s : State) (op : Word) : (reportUnknown op s).keys = s.keys := rfl
@[simp] theorem reportUnknown_fb (s : State) (op : Word) : (reportUnknown op s).fb = s.fb := rfl
@[simp] theorem reportUnknown_mem (s : State) (op : Word) : (reportUnknown op s).mem = s.mem := rfl
@[simp] theorem reportUnknown_params (s : State) (op : Word) : (reportUnknown op s).params = s.params := rfl
@[simp] theorem reportUnknown_draws (s : State) (op : Word) : (reportUnknown op s).draws = s.draws := rfl
@[simp] theorem reportUnknown_out (s : State) (op : Word) : (reportUnknown op s).out = { s.out with diag := some ⟨.unknownInstruction, some op, s.pcInst⟩ } := rfl
@[simp] theorem reportUnknown_reg (s : State) (op : Word) (q : Reg) : (reportUnknown op s).reg q = s.reg q := rfl

/-! ### load -/

@[simp] theorem load_v (s : State) (rom : List Byte) : (load rom s).v = s.v := rfl
@[simp] theorem load_i (s : State) (rom : List Byte) : (load rom s).i = s.i := rfl
@[simp] theorem load_pc (s : State) (rom : List Byte) : (load rom s).pc = s.pc := rfl
@[simp] theorem load_sp (s : State) (rom : List Byte) : (load rom s).sp = s.sp := rfl
@[simp] theorem load_stack (s : State) (rom : List Byte) : (load rom s).stack = s.stack := rfl
@[simp] theorem load_dt (s : State) (rom : List Byte) : (load rom s).dt = s.dt := rfl
@[simp] theorem load_st (s : State) (rom : List Byte) : (load rom s).st = s.st := rfl
@[simp] theorem load_keys (s : State) (rom : List Byte) : (load rom s).keys = s.keys := rfl
@[simp] theorem load_fb (s : State) (rom : List Byte) : (load rom s).fb = s.fb := rfl
@[simp] theorem load_mem (s : State) (rom : List Byte) : (load rom s).mem = writeBytes s.mem programBase (rom.take romLimit) := rfl
@[simp] theorem load_params (s : State) (rom : List Byte) : (load rom s).params = s.params := rfl
@[simp] theorem load_draws (s : State) (rom : List Byte) : (load rom s).draws = s.draws := rfl
@[simp] theorem load_out (s : State) (rom : List Byte) : (load rom s).out = s.out := rfl
@[simp] theorem load_reg (s : State) (rom : List Byte) (q : Reg) : (load rom s).reg q = s.reg q := rfl

/-! ### setKeys -/

@[simp] theorem setKeys_v (s : State) (k : Word) : (setKeys k s).v = s.v := rfl
@[simp] theorem setKeys_i (s : State) (k : Word) : (setKeys k s).i = s.i := rfl
@[simp] theorem setKeys_pc (s : State) (k : Word) : (setKeys k s).pc = s.pc := rfl
@[simp] theorem setKeys_sp (s : State) (k : Word) : (setKeys k s).sp = s.sp := rfl
@[simp] theorem setKeys_stack (s : State) (k : Word) : (setKeys k s).stack = s.stack := rfl
@[simp] theorem setKeys_dt (s : State) (k : Word) : (setKeys k s).dt = s.dt := rfl
@[simp] theorem setKeys_st (s : State) (k : Word) : (setKeys k s).st = s.st := rfl
@[simp] theorem setKeys_keys (s : State) (k : Word) : (setKeys k s).keys = k := rfl
@[simp] theorem setKeys_fb (s : State) (k : Word) : (setKeys k s).fb = s.fb := rfl
@[simp] theorem setKeys_mem (s : State) (k : Word) : (setKeys k s).mem = s.mem := rfl
@[simp] theorem setKeys_params (s : State) (k : Word) : (setKeys k s).params = s.params := rfl
@[simp] theorem setKeys_draws (s : State) (k : Word) : (setKeys k s).draws = s.draws := rfl
@[simp] theorem setKeys_out (s : State) (k : Word) : (setKeys k s).out = s.out := rfl
@[simp] theorem setKeys_reg (s : State) (k : Word) (q : Reg) : (setKeys k s).reg q = s.reg q := rfl

/-! ### tickTimers -/

@[simp] theorem tickTimers_v (s : State) : (tickTimers s).v = s.v := rfl
@[simp] theorem tickTimers_i (s : State) : (tickTimers s).i = s.i := rfl
@[simp] theorem tickTimers_pc (s : State) : (tickTimers s).pc = s.pc := rfl
@[simp] theorem tickTimers_sp (s : State) : (tickTimers s).sp = s.sp := rfl
@[simp] theorem tickTimers_stack (s : State) : (tickTimers s).stack = s.stack := rfl
@[simp] theorem tickTimers_dt (s : State) : (tickTimers s).dt = tickTimer s.dt := rfl
@[simp] theorem tickTimers_st (s : State) : (tickTimers s).st = tickTimer s.st := rfl
@[simp] theorem tickTimers_keys (s : State) : (tickTimers s).keys = s.keys := rfl
@[simp] theorem tickTimers_fb (s : State) : (tickTimers s).fb = s.fb := rfl
@[simp] theorem tickTimers_mem (s : State) : (tickTimers s).mem = s.mem := rfl
@[simp] theorem tickTimers_params (s : State) : (tickTimers s).params = s.params := rfl
@[simp] theorem tickTimers_draws (s : State) : (tickTimers s).draws = s.draws := rfl
@[simp] theorem tickTimers_out (s : State) : (tickTimers s).out = s.out := rfl
@[simp] theorem tickTimers_reg (s : State) (q : Reg) : (tickTimers s).reg q = s.reg q := rfl

/-! ### forcePc -/

@[simp] theorem forcePc_v (s : State) (a : Word) : (forcePc a s).v = s.v := rfl
@[simp] theorem forcePc_i (s : State) (a : Word) : (forcePc a s).i = s.i := rfl
@[simp] theorem forcePc_pc (s : State) (a : Word) : (forcePc a s).pc = a := rfl
@[simp] theorem forcePc_sp (s : State) (a : Word) : (forcePc a s).sp = s.sp := rfl
@[simp] theorem forcePc_stack (s : State) (a : Word) : (forcePc a s).stack = s.stack := rfl
@[simp] theorem forcePc_dt (s : State) (a : Word) : (forcePc a s).dt = s.dt := rfl
@[simp] theorem forcePc_st (s : State) (a : Word) : (forcePc a s).st = s.st := rfl
@[simp] theorem forcePc_keys (s : State) (a : Word) : (forcePc a s).keys = s.keys := rfl
@[simp] theorem forcePc_fb (s : State) (a : Word) : (forcePc a s).fb = s.fb := rfl
@[simp] theorem forcePc_mem (s : State) (a : Word) : (forcePc a s).mem = s.mem := rfl
@[simp] theorem forcePc_params (s : State) (a : Word) : (forcePc a s).params = s.params := rfl
@[simp] theorem forcePc_draws (s : State) (a : Word) : (forcePc a s).draws = s.draws := rfl
@[simp] theorem forcePc_out (s : State) (a : Word) : (forcePc a s).out = s.out := rfl
@[simp] theorem forcePc_reg (s : State) (a : Word) (q : Reg) : (forcePc a s).reg q = s.reg q := rfl

/-! ### Reading a register -/

/-- A register reads what was last written to it, and a write leaves every other register alone (R8, R20). -/
theorem reg_setReg (s : State) (r q : Reg) (b : Byte) :
    (s.setReg r b).reg q = if q = r then b else s.reg q := by
  simp only [State.reg, State.setReg, Fin.getElem_fin, Vector.getElem_set, Fin.ext_iff]
  simp only [eq_comm]

@[simp] theorem reg_setReg_self (s : State) (r : Reg) (b : Byte) : (s.setReg r b).reg r = b := by
  simp [reg_setReg]

theorem reg_setReg_ne (s : State) (r q : Reg) (b : Byte) (h : q ≠ r) : (s.setReg r b).reg q = s.reg q := by
  simp [reg_setReg, h]

/-- Two register files that read the same are the same. -/
theorem v_ext (s t : State) (h : ∀ r, t.reg r = s.reg r) : t.v = s.v := by
  apply Vector.ext
  intro k hk
  exact h ⟨k, hk⟩

/-! ### A skip -/

@[simp] theorem skipIf_v (s : State) (c : Bool) : (s.skipIf c).v = s.v := by cases c <;> rfl
@[simp] theorem skipIf_i (s : State) (c : Bool) : (s.skipIf c).i = s.i := by cases c <;> rfl
@[simp] theorem skipIf_pc (s : State) (c : Bool) :
    (s.skipIf c).pc = if c then s.pc + 2 else s.pc := by
  cases c <;> rfl
@[simp] theorem skipIf_sp (s : State) (c : Bool) : (s.skipIf c).sp = s.sp := by cases c <;> rfl
@[simp] theorem skipIf_stack (s : State) (c : Bool) : (s.skipIf c).stack = s.stack := by cases c <;> rfl
@[simp] theorem skipIf_dt (s : State) (c : Bool) : (s.skipIf c).dt = s.dt := by cases c <;> rfl
@[simp] theorem skipIf_st (s : State) (c : Bool) : (s.skipIf c).st = s.st := by cases c <;> rfl
@[simp] theorem skipIf_keys (s : State) (c : Bool) : (s.skipIf c).keys = s.keys := by cases c <;> rfl
@[simp] theorem skipIf_fb (s : State) (c : Bool) : (s.skipIf c).fb = s.fb := by cases c <;> rfl
@[simp] theorem skipIf_mem (s : State) (c : Bool) : (s.skipIf c).mem = s.mem := by cases c <;> rfl
@[simp] theorem skipIf_params (s : State) (c : Bool) : (s.skipIf c).params = s.params := by cases c <;> rfl
@[simp] theorem skipIf_draws (s : State) (c : Bool) : (s.skipIf c).draws = s.draws := by cases c <;> rfl
@[simp] theorem skipIf_out (s : State) (c : Bool) : (s.skipIf c).out = s.out := by cases c <;> rfl
@[simp] theorem skipIf_reg (s : State) (c : Bool) (q : Reg) : (s.skipIf c).reg q = s.reg q := by cases c <;> rfl

end Sys2Proof.Laws
end

