-- ==== Sys2Proof/Laws/Ops.lean ====
section
/-! SUPPORT. What each shared operation of the meanings can do, said once. -/

namespace Sys2Proof.Laws

open Sys2Proof Sys2Proof.Machine

/-! ### Outcomes -/

@[simp] theorem next_inj {s t : State} :
    (Host.Outcome.next s : Result) = .next t ↔ s = t := by
  constructor
  · intro h; injection h
  · rintro rfl; rfl

@[simp] theorem raise_eq (k : DiagKind) (n : Instr) (s : State) : raise k n s = .next (warn k n s) := rfl

@[simp] theorem pcInst_def (s : State) : s.pcInst = s.pc - 2 := rfl

/-! ### Memory -/

/-- A read whose range is inside memory hands on its bytes. -/
theorem withBytes_inside (s : State) (base len : Nat) (k : List Byte → Result) (h : base + len ≤ memorySize) :
    withBytes s base len k = k (bytesFrom s.mem base len) := by
  simp [withBytes, memRead_inside _ _ _ h]

/-- A read that goes on has its range inside memory. -/
theorem withBytes_next {s t : State} {base len : Nat} {k : List Byte → Result}
    (h : withBytes s base len k = .next t) : base + len ≤ memorySize ∧ k (bytesFrom s.mem base len) = .next t := by
  unfold withBytes memRead at h
  split at h
  · next bs hb =>
    split at hb
    · next hlen => cases hb; exact ⟨hlen, h⟩
    · cases hb
  · cases h

/-- A store whose range is inside memory changes memory only. -/
theorem storeBytes_inside (s : State) (base : Nat) (bs : List Byte) (h : base + bs.length ≤ memorySize) :
    storeBytes s base bs = .next { s with mem := writeBytes s.mem base bs } := by
  simp [storeBytes, memWrite_inside _ _ _ h]

/-- A store that goes on has its range inside memory and changes memory only. -/
theorem storeBytes_next {s t : State} {base : Nat} {bs : List Byte} (h : storeBytes s base bs = .next t) :
    base + bs.length ≤ memorySize ∧ t = { s with mem := writeBytes s.mem base bs } := by
  unfold storeBytes memWrite at h
  split at h
  · next m hm =>
    split at hm
    · next hlen => cases hm; exact ⟨hlen, (next_inj.mp h).symm⟩
    · cases hm
  · cases h

/-! ### The call stack -/

/-- A push below the capacity. -/
theorem pushThen_inside (s : State) (a : Word) (k : State → Result) (h : s.sp < s.stack.length) :
    pushThen s a k = k { s with stack := s.stack.set s.sp a, sp := s.sp + 1 } := by
  simp [pushThen, h]

/-- A push that goes on was below the capacity. -/
theorem pushThen_next {s t : State} {a : Word} {k : State → Result} (h : pushThen s a k = .next t) :
    s.sp < s.stack.length ∧ k { s with stack := s.stack.set s.sp a, sp := s.sp + 1 } = .next t := by
  unfold pushThen at h
  split at h
  · next hlt => exact ⟨hlt, h⟩
  · cases h

/-- A pop of an entry that is there. -/
theorem popPc_inside (s : State) (h : s.sp - 1 < s.stack.length) :
    popPc s = .next { s with sp := s.sp - 1, pc := s.stack[s.sp - 1] } := by
  simp [popPc, h]

/-- A pop that goes on moves the top entry to `PC` and lowers the depth. -/
theorem popPc_next {s t : State} (h : popPc s = .next t) :
    ∃ a, s.stack[s.sp - 1]? = some a ∧ t = { s with sp := s.sp - 1, pc := a } := by
  unfold popPc at h
  split at h
  · next a ha => exact ⟨a, ha, (next_inj.mp h).symm⟩
  · cases h

/-! ### Flags -/

@[simp] theorem toNat_flagByte (c : Bool) : (flagByte c).toNat = if c then 1 else 0 := by cases c <;> rfl

@[simp] theorem aluFlagged_i (x : Reg) (rd : State → Byte × Byte) (f g : Byte → Byte → Byte) (s : State) :
    (aluFlagged x rd f g s).i = s.i := rfl
@[simp] theorem aluFlagged_pc (x : Reg) (rd : State → Byte × Byte) (f g : Byte → Byte → Byte) (s : State) :
    (aluFlagged x rd f g s).pc = s.pc := rfl
@[simp] theorem aluFlagged_sp (x : Reg) (rd : State → Byte × Byte) (f g : Byte → Byte → Byte) (s : State) :
    (aluFlagged x rd f g s).sp = s.sp := rfl
@[simp] theorem aluFlagged_stack (x : Reg) (rd : State → Byte × Byte) (f g : Byte → Byte → Byte) (s : State) :
    (aluFlagged x rd f g s).stack = s.stack := rfl
@[simp] theorem aluFlagged_dt (x : Reg) (rd : State → Byte × Byte) (f g : Byte → Byte → Byte) (s : State) :
    (aluFlagged x rd f g s).dt = s.dt := rfl
@[simp] theorem aluFlagged_st (x : Reg) (rd : State → Byte × Byte) (f g : Byte → Byte → Byte) (s : State) :
    (aluFlagged x rd f g s).st = s.st := rfl
@[simp] theorem aluFlagged_keys (x : Reg) (rd : State → Byte × Byte) (f g : Byte → Byte → Byte) (s : State) :
    (aluFlagged x rd f g s).keys = s.keys := rfl
@[simp] theorem aluFlagged_fb (x : Reg) (rd : State → Byte × Byte) (f g : Byte → Byte → Byte) (s : State) :
    (aluFlagged x rd f g s).fb = s.fb := rfl
@[simp] theorem aluFlagged_mem (x : Reg) (rd : State → Byte × Byte) (f g : Byte → Byte → Byte) (s : State) :
    (aluFlagged x rd f g s).mem = s.mem := rfl
@[simp] theorem aluFlagged_params (x : Reg) (rd : State → Byte × Byte) (f g : Byte → Byte → Byte) (s : State) :
    (aluFlagged x rd f g s).params = s.params := rfl
@[simp] theorem aluFlagged_draws (x : Reg) (rd : State → Byte × Byte) (f g : Byte → Byte → Byte) (s : State) :
    (aluFlagged x rd f g s).draws = s.draws := rfl
@[simp] theorem aluFlagged_out (x : Reg) (rd : State → Byte × Byte) (f g : Byte → Byte → Byte) (s : State) :
    (aluFlagged x rd f g s).out = s.out := rfl

/-- What a flag-setting ALU instruction leaves in each register (R80): the destination holds the result of the
operands that the read order gives, `VF` the flag unless it is the destination, and no other register changes. -/
theorem aluFlagged_reg (x q : Reg) (rd : State → Byte × Byte) (f g : Byte → Byte → Byte) (s : State) :
    (aluFlagged x rd f g s).reg q =
      if q = x then
        match s.params.readOrder with
        | .snapshot => f (rd s).1 (rd s).2
        | .sequential => f (rd (s.setReg VF (g (rd s).1 (rd s).2))).1 (rd (s.setReg VF (g (rd s).1 (rd s).2))).2
      else if q = VF then g (rd s).1 (rd s).2
      else s.reg q := by
  unfold aluFlagged
  rw [reg_setReg, reg_setReg]
  split
  · cases s.params.readOrder <;> rfl
  · rfl

@[simp] theorem indexOverflowFlag_i (c : Bool) (s : State) : (indexOverflowFlag c s).i = s.i := by
  unfold indexOverflowFlag; split <;> rfl
@[simp] theorem indexOverflowFlag_pc (c : Bool) (s : State) : (indexOverflowFlag c s).pc = s.pc := by
  unfold indexOverflowFlag; split <;> rfl
@[simp] theorem indexOverflowFlag_sp (c : Bool) (s : State) : (indexOverflowFlag c s).sp = s.sp := by
  unfold indexOverflowFlag; split <;> rfl
@[simp] theorem indexOverflowFlag_stack (c : Bool) (s : State) : (indexOverflowFlag c s).stack = s.stack := by
  unfold indexOverflowFlag; split <;> rfl
@[simp] theorem indexOverflowFlag_dt (c : Bool) (s : State) : (indexOverflowFlag c s).dt = s.dt := by
  unfold indexOverflowFlag; split <;> rfl
@[simp] theorem indexOverflowFlag_st (c : Bool) (s : State) : (indexOverflowFlag c s).st = s.st := by
  unfold indexOverflowFlag; split <;> rfl
@[simp] theorem indexOverflowFlag_keys (c : Bool) (s : State) : (indexOverflowFlag c s).keys = s.keys := by
  unfold indexOverflowFlag; split <;> rfl
@[simp] theorem indexOverflowFlag_fb (c : Bool) (s : State) : (indexOverflowFlag c s).fb = s.fb := by
  unfold indexOverflowFlag; split <;> rfl
@[simp] theorem indexOverflowFlag_mem (c : Bool) (s : State) : (indexOverflowFlag c s).mem = s.mem := by
  unfold indexOverflowFlag; split <;> rfl
@[simp] theorem indexOverflowFlag_params (c : Bool) (s : State) : (indexOverflowFlag c s).params = s.params := by
  unfold indexOverflowFlag; split <;> rfl
@[simp] theorem indexOverflowFlag_draws (c : Bool) (s : State) : (indexOverflowFlag c s).draws = s.draws := by
  unfold indexOverflowFlag; split <;> rfl
@[simp] theorem indexOverflowFlag_out (c : Bool) (s : State) : (indexOverflowFlag c s).out = s.out := by
  unfold indexOverflowFlag; split <;> rfl

/-- What `Fx1E` leaves in each register: `VF` by the two parameters of R139, every other register alone. -/
theorem indexOverflowFlag_reg (c : Bool) (s : State) (q : Reg) :
    (indexOverflowFlag c s).reg q =
      if q = VF ∧ s.params.overflowFlag = .set then
        if c then 1 else match s.params.noOverflowVf with
          | .clear => 0
          | .unchanged => s.reg q
      else s.reg q := by
  unfold indexOverflowFlag
  split <;> simp_all [reg_setReg]

/-! ### Keys -/

@[simp] theorem warnKeyIndex_v (x : Reg) (n : Instr) (s : State) : (warnKeyIndex x n s).v = s.v := by
  unfold warnKeyIndex; split <;> rfl
@[simp] theorem warnKeyIndex_i (x : Reg) (n : Instr) (s : State) : (warnKeyIndex x n s).i = s.i := by
  unfold warnKeyIndex; split <;> rfl
@[simp] theorem warnKeyIndex_pc (x : Reg) (n : Instr) (s : State) : (warnKeyIndex x n s).pc = s.pc := by
  unfold warnKeyIndex; split <;> rfl
@[simp] theorem warnKeyIndex_sp (x : Reg) (n : Instr) (s : State) : (warnKeyIndex x n s).sp = s.sp := by
  unfold warnKeyIndex; split <;> rfl
@[simp] theorem warnKeyIndex_stack (x : Reg) (n : Instr) (s : State) : (warnKeyIndex x n s).stack = s.stack := by
  unfold warnKeyIndex; split <;> rfl
@[simp] theorem warnKeyIndex_dt (x : Reg) (n : Instr) (s : State) : (warnKeyIndex x n s).dt = s.dt := by
  unfold warnKeyIndex; split <;> rfl
@[simp] theorem warnKeyIndex_st (x : Reg) (n : Instr) (s : State) : (warnKeyIndex x n s).st = s.st := by
  unfold warnKeyIndex; split <;> rfl
@[simp] theorem warnKeyIndex_keys (x : Reg) (n : Instr) (s : State) : (warnKeyIndex x n s).keys = s.keys := by
  unfold warnKeyIndex; split <;> rfl
@[simp] theorem warnKeyIndex_fb (x : Reg) (n : Instr) (s : State) : (warnKeyIndex x n s).fb = s.fb := by
  unfold warnKeyIndex; split <;> rfl
@[simp] theorem warnKeyIndex_mem (x : Reg) (n : Instr) (s : State) : (warnKeyIndex x n s).mem = s.mem := by
  unfold warnKeyIndex; split <;> rfl
@[simp] theorem warnKeyIndex_params (x : Reg) (n : Instr) (s : State) : (warnKeyIndex x n s).params = s.params := by
  unfold warnKeyIndex; split <;> rfl
@[simp] theorem warnKeyIndex_draws (x : Reg) (n : Instr) (s : State) : (warnKeyIndex x n s).draws = s.draws := by
  unfold warnKeyIndex; split <;> rfl
@[simp] theorem warnKeyIndex_reg (x : Reg) (n : Instr) (s : State) (q : Reg) :
    (warnKeyIndex x n s).reg q = s.reg q := by unfold warnKeyIndex; split <;> rfl

theorem warnKeyIndex_out (x : Reg) (n : Instr) (s : State) :
    (warnKeyIndex x n s).out =
      if (s.reg x).toNat > 15 then { s.out with diag := some ⟨.invalidKeyIndex, some (encode n), s.pc - 2⟩ }
      else s.out := by
  unfold warnKeyIndex; split <;> rfl

/-- The first pressed key of a list of keys (R136): it is in the list, it is pressed, and no key before it is. -/
theorem leastPressed_spec (keys : Word) (ks : List Nat) (hp : ∃ k ∈ ks, keys.getLsbD k = true) :
    ∃ pre k post, ks = pre ++ k :: post ∧ keys.getLsbD k = true ∧ (∀ j ∈ pre, keys.getLsbD j = false) ∧
      leastPressed keys ks = BitVec.ofNat 8 k := by
  induction ks with
  | nil => simp at hp
  | cons k ks ih =>
    by_cases hk : keys.getLsbD k = true
    · exact ⟨[], k, ks, rfl, hk, by simp, by simp [leastPressed, hk]⟩
    · obtain ⟨pre, j, post, rfl, h1, h2, h3⟩ := ih (by
        obtain ⟨i, hi, hik⟩ := hp
        rcases List.mem_cons.mp hi with rfl | hi
        · exact absurd hik hk
        · exact ⟨i, hi, hik⟩)
      refine ⟨k :: pre, j, post, rfl, h1, ?_, by simp [leastPressed, hk, h3]⟩
      intro i hi
      rcases List.mem_cons.mp hi with rfl | hi
      · simpa using hk
      · exact h2 i hi

/-- Some key is pressed iff `KEYS` is not 0. -/
theorem exists_pressed (keys : Word) (h : keys ≠ 0#16) : ∃ k ∈ List.range 16, keys.getLsbD k = true := by
  by_contra hn
  apply h
  apply BitVec.eq_of_getLsbD_eq
  intro i hi
  have : ¬ keys.getLsbD i = true := fun hk => hn ⟨i, List.mem_range.mpr hi, hk⟩
  simpa using this

/-- The key `Fx0A` takes (R136): the least one pressed. -/
theorem lowestKey_spec (keys : Word) (h : keys ≠ 0#16) :
    ∃ k, k < 16 ∧ keys.getLsbD k = true ∧ (∀ j, j < k → keys.getLsbD j = false) ∧ (lowestKey keys).toNat = k := by
  obtain ⟨pre, k, post, hr, hk, hpre, he⟩ := leastPressed_spec keys (List.range 16) (exists_pressed keys h)
  have hlen : pre.length < 16 := by
    have := congrArg List.length hr
    simp at this; omega
  have hat : ∀ j (hj : j < 16), (List.range 16)[j]'(by simpa using hj) = j := fun j hj => List.getElem_range _
  have hkk : k = pre.length := by
    have := hat pre.length hlen
    simp only [hr] at this
    simpa using this
  refine ⟨k, by omega, hk, fun j hj => hpre j ?_, ?_⟩
  · have := hat j (by omega)
    simp only [hr] at this
    rw [List.getElem_append_left (by omega)] at this
    exact this ▸ List.getElem_mem _
  · rw [lowestKey, he]; simp; omega

/-! ### Transfers -/

@[simp] theorem length_regsUpTo (x : Reg) (s : State) : (regsUpTo x s).length = x.val + 1 := by
  simp [regsUpTo]

/-- The bytes of `Fx55` are the registers in order (R142). -/
theorem getD_regsUpTo (x r : Reg) (s : State) (h : r ≤ x) : (regsUpTo x s).getD r.val 0 = s.reg r := by
  have hr : r.val < x.val + 1 := by have : r.val ≤ x.val := h; omega
  simp [regsUpTo, State.reg, List.getD_eq_getElem?_getD, hr]

/-- The register file after `Fx65` (R143). -/
theorem getElem_loadedRegs (v : Vector Byte 16) (bs : List Byte) (r : Reg) :
    (loadedRegs v bs)[r] = bs.getD r.val v[r] := by
  simp [loadedRegs]

/-- What the range policy of R131 lets happen when it answers a next state. -/
theorem transferByPolicy_next {ok : Bool} {n : Instr} {x : Reg} {go : State → Result} {s t : State}
    (h : transferByPolicy ok n x go s = .next t) :
    (ok = true ∧ go s = .next t) ∨
    (ok = false ∧ s.params.transfer = .reject ∧ t = warn .registerTransferOutOfBounds n s) ∨
    (ok = false ∧ s.params.transfer = .warn ∧ s.i.toNat + (x.val + 1) ≤ memorySize ∧
      go (warn .registerTransferOutOfBounds n s) = .next t) := by
  unfold transferByPolicy at h
  split at h
  · next hok => exact .inl ⟨hok, h⟩
  · next hok =>
    have hok' : ok = false := by simpa using hok
    split at h
    · next hp => exact .inr (.inl ⟨hok', hp, (next_inj.mp h).symm⟩)
    · next hp =>
      split at h
      · next hr => exact .inr (.inr ⟨hok', hp, hr, h⟩)
      · cases h

/-- The digits of `Fx33` (R141). -/
theorem toNat_bcdDigits (v : Byte) :
    (bcdDigits v).map BitVec.toNat = [v.toNat / 100, v.toNat / 10 % 10, v.toNat % 10] := by
  simp [bcdDigits]

end Sys2Proof.Laws
end

