-- ==== Sys2Proof/Laws/PerInstr.lean ====
section
/-! SUPPORT. Facts about every instruction, one lemma per constructor: the word of an instruction matches its own
row of the opcode map (30_encoding.md R64). -/

namespace Sys2Proof.Laws.OpcodeRow

open Sys2Proof Sys2Proof.Laws

/-- The mask and the match of an instruction's row of R64, with the masks of `P_DECODE_5_9_N = IGNORE`. -/
def opcodeRow : Instr → Word × Word
  | .cls => (0xFFFF#16, 0x00E0#16)
  | .ret => (0xFFFF#16, 0x00EE#16)
  | .sys _ => (0xF000#16, 0x0000#16)
  | .jp _ => (0xF000#16, 0x1000#16)
  | .call _ => (0xF000#16, 0x2000#16)
  | .seByte _ _ => (0xF000#16, 0x3000#16)
  | .sneByte _ _ => (0xF000#16, 0x4000#16)
  | .seReg _ _ => (0xF000#16, 0x5000#16)
  | .ldByte _ _ => (0xF000#16, 0x6000#16)
  | .addByte _ _ => (0xF000#16, 0x7000#16)
  | .ldReg _ _ => (0xF00F#16, 0x8000#16)
  | .orReg _ _ => (0xF00F#16, 0x8001#16)
  | .andReg _ _ => (0xF00F#16, 0x8002#16)
  | .xorReg _ _ => (0xF00F#16, 0x8003#16)
  | .addReg _ _ => (0xF00F#16, 0x8004#16)
  | .sub _ _ => (0xF00F#16, 0x8005#16)
  | .shr _ _ => (0xF00F#16, 0x8006#16)
  | .subn _ _ => (0xF00F#16, 0x8007#16)
  | .shl _ _ => (0xF00F#16, 0x800E#16)
  | .sneReg _ _ => (0xF000#16, 0x9000#16)
  | .ldI _ => (0xF000#16, 0xA000#16)
  | .jpV0 _ => (0xF000#16, 0xB000#16)
  | .rnd _ _ => (0xF000#16, 0xC000#16)
  | .drw _ _ _ => (0xF000#16, 0xD000#16)
  | .skp _ => (0xF0FF#16, 0xE09E#16)
  | .sknp _ => (0xF0FF#16, 0xE0A1#16)
  | .ldVxDt _ => (0xF0FF#16, 0xF007#16)
  | .ldVxK _ => (0xF0FF#16, 0xF00A#16)
  | .ldDtVx _ => (0xF0FF#16, 0xF015#16)
  | .ldStVx _ => (0xF0FF#16, 0xF018#16)
  | .addI _ => (0xF0FF#16, 0xF01E#16)
  | .ldF _ => (0xF0FF#16, 0xF029#16)
  | .ldB _ => (0xF0FF#16, 0xF033#16)
  | .stRegs _ => (0xF0FF#16, 0xF055#16)
  | .ldRegs _ => (0xF0FF#16, 0xF065#16)

/-- The word of the instruction is selected by its row: `(op & mask) == match` (R64). -/
def Statement (i : Instr) : Prop := encode i &&& (opcodeRow i).1 = (opcodeRow i).2

theorem cls : Statement (.cls) := by unfold Statement; decide

theorem ret : Statement (.ret) := by unfold Statement; decide

theorem sys (addr : Addr) : Statement (.sys addr) := by
  simp only [Statement, opcodeRow, encode]
  apply BitVec.eq_of_toNat_eq; rw [toNat_and_F000, toNat_wordAddr]; simp; try omega

theorem jp (addr : Addr) : Statement (.jp addr) := by
  simp only [Statement, opcodeRow, encode]
  apply BitVec.eq_of_toNat_eq; rw [toNat_and_F000, toNat_wordAddr]; simp; try omega

theorem call (addr : Addr) : Statement (.call addr) := by
  simp only [Statement, opcodeRow, encode]
  apply BitVec.eq_of_toNat_eq; rw [toNat_and_F000, toNat_wordAddr]; simp; try omega

theorem seByte (x : Reg) (kk : Byte) : Statement (.seByte x kk) := by
  simp only [Statement, opcodeRow, encode]
  apply BitVec.eq_of_toNat_eq; rw [toNat_and_F000, toNat_wordXKK]; simp; try omega

theorem sneByte (x : Reg) (kk : Byte) : Statement (.sneByte x kk) := by
  simp only [Statement, opcodeRow, encode]
  apply BitVec.eq_of_toNat_eq; rw [toNat_and_F000, toNat_wordXKK]; simp; try omega

theorem seReg (x y : Reg) : Statement (.seReg x y) := by
  simp only [Statement, opcodeRow, encode]
  apply BitVec.eq_of_toNat_eq; rw [toNat_and_F000, toNat_wordXYN]; simp; try omega

theorem ldByte (x : Reg) (kk : Byte) : Statement (.ldByte x kk) := by
  simp only [Statement, opcodeRow, encode]
  apply BitVec.eq_of_toNat_eq; rw [toNat_and_F000, toNat_wordXKK]; simp; try omega

theorem addByte (x : Reg) (kk : Byte) : Statement (.addByte x kk) := by
  simp only [Statement, opcodeRow, encode]
  apply BitVec.eq_of_toNat_eq; rw [toNat_and_F000, toNat_wordXKK]; simp; try omega

theorem ldReg (x y : Reg) : Statement (.ldReg x y) := by
  simp only [Statement, opcodeRow, encode]
  apply BitVec.eq_of_toNat_eq; rw [toNat_and_F00F, toNat_wordXYN]; simp; try omega

theorem orReg (x y : Reg) : Statement (.orReg x y) := by
  simp only [Statement, opcodeRow, encode]
  apply BitVec.eq_of_toNat_eq; rw [toNat_and_F00F, toNat_wordXYN]; simp; try omega

theorem andReg (x y : Reg) : Statement (.andReg x y) := by
  simp only [Statement, opcodeRow, encode]
  apply BitVec.eq_of_toNat_eq; rw [toNat_and_F00F, toNat_wordXYN]; simp; try omega

theorem xorReg (x y : Reg) : Statement (.xorReg x y) := by
  simp only [Statement, opcodeRow, encode]
  apply BitVec.eq_of_toNat_eq; rw [toNat_and_F00F, toNat_wordXYN]; simp; try omega

theorem addReg (x y : Reg) : Statement (.addReg x y) := by
  simp only [Statement, opcodeRow, encode]
  apply BitVec.eq_of_toNat_eq; rw [toNat_and_F00F, toNat_wordXYN]; simp; try omega

theorem sub (x y : Reg) : Statement (.sub x y) := by
  simp only [Statement, opcodeRow, encode]
  apply BitVec.eq_of_toNat_eq; rw [toNat_and_F00F, toNat_wordXYN]; simp; try omega

theorem shr (x y : Reg) : Statement (.shr x y) := by
  simp only [Statement, opcodeRow, encode]
  apply BitVec.eq_of_toNat_eq; rw [toNat_and_F00F, toNat_wordXYN]; simp; try omega

theorem subn (x y : Reg) : Statement (.subn x y) := by
  simp only [Statement, opcodeRow, encode]
  apply BitVec.eq_of_toNat_eq; rw [toNat_and_F00F, toNat_wordXYN]; simp; try omega

theorem shl (x y : Reg) : Statement (.shl x y) := by
  simp only [Statement, opcodeRow, encode]
  apply BitVec.eq_of_toNat_eq; rw [toNat_and_F00F, toNat_wordXYN]; simp; try omega

theorem sneReg (x y : Reg) : Statement (.sneReg x y) := by
  simp only [Statement, opcodeRow, encode]
  apply BitVec.eq_of_toNat_eq; rw [toNat_and_F000, toNat_wordXYN]; simp; try omega

theorem ldI (addr : Addr) : Statement (.ldI addr) := by
  simp only [Statement, opcodeRow, encode]
  apply BitVec.eq_of_toNat_eq; rw [toNat_and_F000, toNat_wordAddr]; simp; try omega

theorem jpV0 (addr : Addr) : Statement (.jpV0 addr) := by
  simp only [Statement, opcodeRow, encode]
  apply BitVec.eq_of_toNat_eq; rw [toNat_and_F000, toNat_wordAddr]; simp; try omega

theorem rnd (x : Reg) (kk : Byte) : Statement (.rnd x kk) := by
  simp only [Statement, opcodeRow, encode]
  apply BitVec.eq_of_toNat_eq; rw [toNat_and_F000, toNat_wordXKK]; simp; try omega

theorem drw (x y : Reg) (n : Nibble) : Statement (.drw x y n) := by
  simp only [Statement, opcodeRow, encode]
  apply BitVec.eq_of_toNat_eq; rw [toNat_and_F000, toNat_wordXYN]; simp; try omega

theorem skp (x : Reg) : Statement (.skp x) := by
  simp only [Statement, opcodeRow, encode]
  apply BitVec.eq_of_toNat_eq; rw [toNat_and_F0FF, toNat_wordXKK]; simp; try omega

theorem sknp (x : Reg) : Statement (.sknp x) := by
  simp only [Statement, opcodeRow, encode]
  apply BitVec.eq_of_toNat_eq; rw [toNat_and_F0FF, toNat_wordXKK]; simp; try omega

theorem ldVxDt (x : Reg) : Statement (.ldVxDt x) := by
  simp only [Statement, opcodeRow, encode]
  apply BitVec.eq_of_toNat_eq; rw [toNat_and_F0FF, toNat_wordXKK]; simp; try omega

theorem ldVxK (x : Reg) : Statement (.ldVxK x) := by
  simp only [Statement, opcodeRow, encode]
  apply BitVec.eq_of_toNat_eq; rw [toNat_and_F0FF, toNat_wordXKK]; simp; try omega

theorem ldDtVx (x : Reg) : Statement (.ldDtVx x) := by
  simp only [Statement, opcodeRow, encode]
  apply BitVec.eq_of_toNat_eq; rw [toNat_and_F0FF, toNat_wordXKK]; simp; try omega

theorem ldStVx (x : Reg) : Statement (.ldStVx x) := by
  simp only [Statement, opcodeRow, encode]
  apply BitVec.eq_of_toNat_eq; rw [toNat_and_F0FF, toNat_wordXKK]; simp; try omega

theorem addI (x : Reg) : Statement (.addI x) := by
  simp only [Statement, opcodeRow, encode]
  apply BitVec.eq_of_toNat_eq; rw [toNat_and_F0FF, toNat_wordXKK]; simp; try omega

theorem ldF (x : Reg) : Statement (.ldF x) := by
  simp only [Statement, opcodeRow, encode]
  apply BitVec.eq_of_toNat_eq; rw [toNat_and_F0FF, toNat_wordXKK]; simp; try omega

theorem ldB (x : Reg) : Statement (.ldB x) := by
  simp only [Statement, opcodeRow, encode]
  apply BitVec.eq_of_toNat_eq; rw [toNat_and_F0FF, toNat_wordXKK]; simp; try omega

theorem stRegs (x : Reg) : Statement (.stRegs x) := by
  simp only [Statement, opcodeRow, encode]
  apply BitVec.eq_of_toNat_eq; rw [toNat_and_F0FF, toNat_wordXKK]; simp; try omega

theorem ldRegs (x : Reg) : Statement (.ldRegs x) := by
  simp only [Statement, opcodeRow, encode]
  apply BitVec.eq_of_toNat_eq; rw [toNat_and_F0FF, toNat_wordXKK]; simp; try omega

end Sys2Proof.Laws.OpcodeRow
end

