-- ==== Sys2Proof/Laws/Step.lean ====
section
/-! SUPPORT. What one step can do, said once (30_encoding.md R69). -/

namespace Sys2Proof.Laws

open Sys2Proof Sys2Proof.Machine

/-- A step outside the fetch window. -/
theorem step_outside {s : State} (h : ¬ fetchable s.pc) : step s = .next (reportPcOutOfRange (beginStep s)) := by
  unfold step; rw [if_neg h]

/-- A step on a word that decodes. -/
theorem step_decoded {s : State} {i : Instr} (h : fetchable s.pc)
    (hd : decodeWord s.params.decode59 (wordAt s.mem s.pc.toNat) = .ok i) : step s = exec i (postFetch s) := by
  unfold step; rw [if_pos h, hd]

/-- A step on an unknown word. -/
theorem step_unknown {s : State} {e : DecodeError} (h : fetchable s.pc)
    (hd : decodeWord s.params.decode59 (wordAt s.mem s.pc.toNat) = .error e) :
    step s = .next (reportUnknown (wordAt s.mem s.pc.toNat) (postFetch s)) := by
  unfold step; rw [if_pos h, hd]

/-- What a step fetches, by the word rather than by its bytes. -/
theorem fetches_iff (s : State) (i : Instr) : Safety.Fetches s i ↔
    fetchable s.pc ∧ decodeWord s.params.decode59 (wordAt s.mem s.pc.toNat) = .ok i := by
  simp only [Safety.Fetches, Safety.fetchedBytes, decode, fetchable, wordAt, programBase]
  generalize decodeWord _ _ = q
  cases q <;> simp [Except.map, and_assoc]

/-- The three ways a step answers a next state. -/
theorem step_next {s t : State} (h : step s = .next t) :
    (¬ fetchable s.pc ∧ t = reportPcOutOfRange (beginStep s)) ∨
    (fetchable s.pc ∧ (∃ e, decodeWord s.params.decode59 (wordAt s.mem s.pc.toNat) = .error e) ∧
      t = reportUnknown (wordAt s.mem s.pc.toNat) (postFetch s)) ∨
    (fetchable s.pc ∧ ∃ i, decodeWord s.params.decode59 (wordAt s.mem s.pc.toNat) = .ok i ∧
      exec i (postFetch s) = .next t) := by
  by_cases hf : fetchable s.pc
  · cases hd : decodeWord s.params.decode59 (wordAt s.mem s.pc.toNat) with
    | ok i => exact .inr (.inr ⟨hf, i, rfl, (step_decoded hf hd) ▸ h⟩)
    | error e =>
      rw [step_unknown hf hd] at h
      exact .inr (.inl ⟨hf, ⟨e, rfl⟩, (next_inj.mp h).symm⟩)
  · rw [step_outside hf] at h
    exact .inl ⟨hf, (next_inj.mp h).symm⟩

/-- The only step that does not answer a next state is one whose instruction does not. -/
theorem step_not_next {s : State} (h : ∀ t, step s ≠ .next t) :
    fetchable s.pc ∧ ∃ i, decodeWord s.params.decode59 (wordAt s.mem s.pc.toNat) = .ok i ∧
      step s = exec i (postFetch s) := by
  by_cases hf : fetchable s.pc
  · cases hd : decodeWord s.params.decode59 (wordAt s.mem s.pc.toNat) with
    | ok i => exact ⟨hf, i, rfl, step_decoded hf hd⟩
    | error e => exact absurd (step_unknown hf hd) (h _)
  · exact absurd (step_outside hf) (h _)

/-- Memory right after a reset is the reset memory whatever the font, and is in its canonical form. -/
theorem wf_resetMemory (font : Vector Byte 80) : Memory.wf (resetMemory font) = true :=
  wf_writeBytes rfl fontBase font.toList (by simp [fontBase, memorySize])

/-- With this hardware's font nothing is listed after a reset. -/
theorem resetMemory_hardwareFont : resetMemory hardwareFont = [] := by decide +kernel

/-- `reset()` under this hardware's parameters gives the reset state, but for the draws already made (R170). -/
theorem resetOp_hardware (s : State) (h : s.params = hardwareParams) :
    resetOp s = { State.reset with draws := s.draws } := by
  have hf : hardwareParams.font = hardwareFont := rfl
  simp only [resetOp, h, hf, resetMemory_hardwareFont]
  rfl

/-- A loaded ROM keeps memory in its canonical form (R171). -/
theorem wf_load {s : State} (rom : List Byte) (h : Memory.wf s.mem = true) : Memory.wf (load rom s).mem = true := by
  have hl : (rom.take romLimit).length ≤ romLimit := List.length_take_le _ _
  exact wf_writeBytes h programBase _ (by simp only [programBase, memorySize, romLimit] at *; omega)

end Sys2Proof.Laws
end

