-- ==== Sys2Proof/Tests/Slice0.lean ====
section
/-! SUPPORT. The model's own tests: the check of WellFormed, words written out from the encodings of R64, single steps
against the vectors of 95_test_vectors.md (each named beside its test), and a witness for every statement that has
hypotheses. -/

namespace Sys2Proof.Tests

open Sys2Proof Sys2Proof.Machine Sys2Proof.Safety

-- The many small kernel evaluations one after the other: side by side they need too many threads.
set_option Elab.async false

/-! ## Helpers -/

/-- `s` with the word `w` where its next step fetches. -/
def placed (w : Nat) (s : State) : State := s.withFetchWord 16 w

/-- The reset state with other parameters. -/
def withParams (p : Params) : State := { State.reset with params := p }

/-- `s` with bytes in its memory. -/
def putBytes (base : Nat) (bs : List Byte) (s : State) : State := { s with mem := writeBytes s.mem base bs }

/-- An outcome is a next state that passes a check. -/
def isNext (p : State → Bool) : Result → Bool
  | .next t => p t
  | .fault _ => false
  | .refused _ => false

/-- An outcome is the refusal `TransferBeyondMemory`. -/
def isTransferRefusal : Result → Bool
  | .next _ => false
  | .fault _ => false
  | .refused r => r == .transferBeyondMemory

theorem exists_next {P : State → Prop} [DecidablePred P] {r : Result} (h : isNext (fun t => decide (P t)) r = true) :
    ∃ t, r = .next t ∧ P t := by
  cases r with
  | next t => exact ⟨t, rfl, of_decide_eq_true h⟩
  | fault _ => cases h
  | refused _ => cases h

/-- The next step fetches `i`, as a check. -/
def fetches (s : State) (i : Instr) : Bool :=
  decide (fetchable s.pc) && match decode s.params.decode59 (fetchedBytes s) with
    | .ok (j, []) => i == j
    | _ => false

theorem fetches_of_check {s : State} {i : Instr} (h : fetches s i = true) : Fetches s i := by
  obtain ⟨h1, h2⟩ := (Bool.and_eq_true _ _).mp h
  refine ⟨(of_decide_eq_true h1).1, (of_decide_eq_true h1).2, ?_⟩
  split at h2
  · next j hd => rw [hd, eq_of_beq h2]
  · cases h2

/-- The reported diagnostic. -/
def reports (t : State) (k : DiagKind) (op : Word) (pc : Word) : Bool :=
  t.out.diag == some ⟨k, some op, pc⟩

/-! ## WellFormed -/

theorem test_wellFormed_refuses_sys_0E0 : (Instr.sys 0x0E0#12).wellFormed = false := by decide
theorem test_wellFormed_refuses_sys_0EE : (Instr.sys 0x0EE#12).wellFormed = false := by decide
theorem test_wellFormed_accepts_sys_000 : (Instr.sys 0x000#12).wellFormed = true := by decide

/-! ## Decoding: words written out bit by bit from R64 -/

theorem test_decode_class0 :
    decodeTableWord 16 0b0000000011100000 = some .cls ∧
    decodeTableWord 16 0b0000000011101110 = some .ret ∧
    decodeTableWord 16 0b0000000111100000 = some (.sys 0x1E0#12) := by decide

theorem test_decode_jumps :
    decodeTableWord 16 0b0001001000110100 = some (.jp 0x234#12) ∧
    decodeTableWord 16 0b0010001100000000 = some (.call 0x300#12) ∧
    decodeTableWord 16 0b1011001000110000 = some (.jpV0 0x230#12) := by decide

theorem test_decode_skips :
    decodeTableWord 16 0b0011001100010000 = some (.seByte 3 0x10#8) ∧
    decodeTableWord 16 0b0100001100010000 = some (.sneByte 3 0x10#8) ∧
    decodeTableWord 16 0b0101000100100000 = some (.seReg 1 2) ∧
    decodeTableWord 16 0b1001000100100000 = some (.sneReg 1 2) := by decide

theorem test_decode_immediates :
    decodeTableWord 16 0b0110101001000010 = some (.ldByte 10 0x42#8) ∧
    decodeTableWord 16 0b0111000000000001 = some (.addByte 0 0x01#8) ∧
    decodeTableWord 16 0b1010000100100011 = some (.ldI 0x123#12) ∧
    decodeTableWord 16 0b1100000000001111 = some (.rnd 0 0x0F#8) ∧
    decodeTableWord 16 0b1101000000010101 = some (.drw 0 1 5#4) := by decide

theorem test_decode_class8 :
    decodeTableWord 16 0b1000000100100000 = some (.ldReg 1 2) ∧
    decodeTableWord 16 0b1000000100100001 = some (.orReg 1 2) ∧
    decodeTableWord 16 0b1000000100100010 = some (.andReg 1 2) ∧
    decodeTableWord 16 0b1000000100100011 = some (.xorReg 1 2) ∧
    decodeTableWord 16 0b1000000100100100 = some (.addReg 1 2) ∧
    decodeTableWord 16 0b1000000100100101 = some (.sub 1 2) ∧
    decodeTableWord 16 0b1000000100100110 = some (.shr 1 2) ∧
    decodeTableWord 16 0b1000000100100111 = some (.subn 1 2) ∧
    decodeTableWord 16 0b1000000100101110 = some (.shl 1 2) := by decide

theorem test_decode_classE :
    decodeTableWord 16 0b1110010110011110 = some (.skp 5) ∧
    decodeTableWord 16 0b1110010110100001 = some (.sknp 5) := by decide

theorem test_decode_classF :
    decodeTableWord 16 0b1111001100000111 = some (.ldVxDt 3) ∧
    decodeTableWord 16 0b1111001000001010 = some (.ldVxK 2) ∧
    decodeTableWord 16 0b1111000100010101 = some (.ldDtVx 1) ∧
    decodeTableWord 16 0b1111000100011000 = some (.ldStVx 1) ∧
    decodeTableWord 16 0b1111001100011110 = some (.addI 3) ∧
    decodeTableWord 16 0b1111000000101001 = some (.ldF 0) ∧
    decodeTableWord 16 0b1111011100110011 = some (.ldB 7) ∧
    decodeTableWord 16 0b1111001001010101 = some (.stRegs 2) ∧
    decodeTableWord 16 0b1111001001100101 = some (.ldRegs 2) := by decide

/-- Q6 and Q5: unknown words. -/
theorem test_decode_unknown :
    decodeTableWord 16 0xE000 = none ∧ decodeTableWord 16 0xF000 = none ∧ decodeTableWord 16 0xFFFF = none ∧
    decodeTableWord 16 0x800F = none ∧ decodeTableWord 16 0x8128 = none := by decide

/-! ## The sequencer -/

/-- Q1. -/
theorem test_step_below_window : isNext (fun t => t.pc == 0x1FE#16 && t.v == State.reset.v &&
    t.out == ⟨some ⟨.programCounterOutOfRange, none, 0x1FE#16⟩, false, false⟩)
    (step { State.reset with pc := 0x1FE#16 }) = true := by decide +kernel

/-- Q3, first step: the last fetchable address. -/
theorem test_step_at_FFE : isNext (fun t => t.reg 0 == 1#8 && t.pc == 0x1000#16)
    (step (putBytes 0xFFE [0x60#8, 0x01#8] { State.reset with pc := 0xFFE#16 })) = true := by decide +kernel

/-- Q4: an odd `PC`. -/
theorem test_step_odd : isNext (fun t => t.reg 10 == 7#8 && t.pc == 0x203#16)
    (step (putBytes 0x201 [0x6A#8, 0x07#8] { State.reset with pc := 0x201#16 })) = true := by decide +kernel

/-- Q5. -/
theorem test_step_unknown : isNext (fun t => reports t .unknownInstruction 0x8128#16 0x200#16 && t.pc == 0x202#16)
    (step (placed 0x8128 State.reset)) = true := by decide +kernel

/-! ## Classes 6, 7, 8 and C -/

/-- A1. -/
theorem test_ldByte : isNext (fun t => t.reg 10 == 0x42#8 && t.pc == 0x202#16)
    (step (placed 0x6A42 State.reset)) = true := by decide +kernel

/-- A2. -/
theorem test_addByte_wraps : isNext (fun t => t.reg 0 == 0#8 && t.reg VF == 0x55#8)
    (step (placed 0x7001 ((State.reset.setReg 0 0xFF#8).setReg VF 0x55#8))) = true := by decide +kernel

/-- A3. -/
theorem test_ldReg : isNext (fun t => t.reg 1 == 7#8)
    (step (placed 0x8120 (State.reset.setReg 2 7#8))) = true := by decide +kernel

/-- A4. -/
theorem test_orReg : isNext (fun t => t.reg 1 == 0xFF#8 && t.reg VF == 9#8)
    (step (placed 0x8121 (((State.reset.setReg 1 0x0F#8).setReg 2 0xF0#8).setReg VF 9#8))) = true := by decide +kernel

/-- A5. -/
theorem test_andReg : isNext (fun t => t.reg 1 == 0x0C#8)
    (step (placed 0x8122 ((State.reset.setReg 1 0x3C#8).setReg 2 0x0F#8))) = true := by decide +kernel

/-- A6. -/
theorem test_xorReg : isNext (fun t => t.reg 1 == 0#8)
    (step (placed 0x8113 (State.reset.setReg 1 0xAA#8))) = true := by decide +kernel

/-- S1. -/
theorem test_addReg_carry : isNext (fun t => t.reg 1 == 0#8 && t.reg VF == 1#8)
    (step (placed 0x8124 ((State.reset.setReg 1 0xFF#8).setReg 2 1#8))) = true := by decide +kernel

/-- A11 under `SEQUENTIAL`. -/
theorem test_addReg_sequential : isNext (fun t => t.reg 1 == 0x10#8 && t.reg VF == 0#8)
    (step (placed 0x81F4 (((withParams { hardwareParams with readOrder := .sequential }).setReg 1 0x10#8).setReg
      VF 0x05#8))) = true := by decide +kernel

/-- A13. -/
theorem test_sub_borrow : isNext (fun t => t.reg 0 == 0xFE#8 && t.reg VF == 0#8)
    (step (placed 0x8015 ((State.reset.setReg 0 3#8).setReg 1 5#8))) = true := by decide +kernel

/-- A14. -/
theorem test_sub_equal : isNext (fun t => t.reg 0 == 0#8 && t.reg VF == 1#8)
    (step (placed 0x8015 ((State.reset.setReg 0 7#8).setReg 1 7#8))) = true := by decide +kernel

/-- A22 under `SNAPSHOT`. -/
theorem test_shr_vf : isNext (fun t => t.reg VF == 1#8)
    (step (placed 0x8F06 (State.reset.setReg VF 3#8))) = true := by decide +kernel

/-- A26. -/
theorem test_shr_source_y : isNext (fun t => t.reg 0 == 2#8 && t.reg VF == 0#8)
    (step (placed 0x8016 (((withParams { hardwareParams with shiftSource := .y }).setReg 0 0xFF#8).setReg 1 4#8)))
      = true := by decide +kernel

/-- A17. -/
theorem test_subn : isNext (fun t => t.reg 0 == 2#8 && t.reg VF == 1#8)
    (step (placed 0x8017 ((State.reset.setReg 0 3#8).setReg 1 5#8))) = true := by decide +kernel

/-- A18. -/
theorem test_subn_borrow : isNext (fun t => t.reg 0 == 0xFE#8 && t.reg VF == 0#8)
    (step (placed 0x8017 ((State.reset.setReg 0 5#8).setReg 1 3#8))) = true := by decide +kernel

/-- A23. -/
theorem test_shl : isNext (fun t => t.reg 0 == 2#8 && t.reg VF == 1#8)
    (step (placed 0x800E (State.reset.setReg 0 0x81#8))) = true := by decide +kernel

/-- A25 under `SEQUENTIAL`. -/
theorem test_shl_sequential : isNext (fun t => t.reg VF == 2#8)
    (step (placed 0x8F0E ((withParams { hardwareParams with readOrder := .sequential }).setReg VF 0xC0#8))) = true := by
  decide +kernel

/-- A28: the draw is a free value, so the test takes it as a premise. -/
theorem test_rnd (h : Config.randomByte 0 = 0xAB#8) : ∃ t, exec (.rnd 0 0x0F#8) State.reset = .next t ∧
    t.reg 0 = 0x0B#8 := ⟨_, rfl, by simp [State.reset, State.reg, State.setReg, h]⟩

/-- A29: whatever the draw. -/
theorem test_rnd_mask_0 : ∃ t, exec (.rnd 0 0x00#8) State.reset = .next t ∧ t.reg 0 = 0x00#8 :=
  ⟨_, rfl, by simp [State.reset, State.reg, State.setReg]⟩

/-! ## Control flow -/

/-- F1. -/
theorem test_cls : isNext (fun t => t.fb.toList.all (fun b => b == 0#8) && t.out.displayChanged && t.pc == 0x202#16)
    (step (placed 0x00E0 { State.reset with fb := Vector.replicate 256 0xFF#8 })) = true := by decide +kernel

/-- F2. -/
theorem test_ret : isNext (fun t => t.pc == 0x204#16 && t.sp == 0)
    (step (placed 0x00EE { State.reset with pc := 0x300#16, sp := 1, stack := State.reset.stack.set 0 0x204#16 }))
      = true := by decide +kernel

/-- F3. -/
theorem test_ret_underflow : isNext (fun t => reports t .stackUnderflow 0x00EE#16 0x200#16 && t.pc == 0x202#16
    && t.sp == 0) (step (placed 0x00EE State.reset)) = true := by decide +kernel

/-- R103's example. -/
theorem test_sys : isNext (fun t => reports t .legacyMachineCall 0x0123#16 0x200#16 && t.pc == 0x202#16)
    (step (placed 0x0123 State.reset)) = true := by decide +kernel

/-- Q8: not a clear. -/
theorem test_sys_01E0 : isNext (fun t => reports t .legacyMachineCall 0x01E0#16 0x200#16
    && t.fb.toList.all (fun b => b == 0xFF#8))
    (step (placed 0x01E0 { State.reset with fb := Vector.replicate 256 0xFF#8 })) = true := by decide +kernel

/-- F4. -/
theorem test_jp : isNext (fun t => t.pc == 0x234#16) (step (placed 0x1234 State.reset)) = true := by decide +kernel

/-- F6. -/
theorem test_call : isNext (fun t => t.stack[0]? == some 0x204#16 && t.sp == 1 && t.pc == 0x300#16)
    (step (placed 0x2300 { State.reset with pc := 0x202#16 })) = true := by decide +kernel

/-- F7. -/
theorem test_call_overflow : isNext (fun t => reports t .stackOverflow 0x2400#16 0x300#16 && t.sp == 16
    && t.stack == State.reset.stack && t.pc == 0x400#16)
    (step (placed 0x2400 { State.reset with pc := 0x300#16, sp := 16 })) = true := by decide +kernel

/-- F9. -/
theorem test_seByte : isNext (fun t => t.pc == 0x204#16)
    (step (placed 0x3310 (State.reset.setReg 3 0x10#8))) = true := by decide +kernel

/-- F10. -/
theorem test_seByte_not : isNext (fun t => t.pc == 0x202#16)
    (step (placed 0x3310 (State.reset.setReg 3 0x11#8))) = true := by decide +kernel

/-- F12. -/
theorem test_sneByte : isNext (fun t => t.pc == 0x202#16)
    (step (placed 0x4310 (State.reset.setReg 3 0x10#8))) = true := by decide +kernel

/-- F13. -/
theorem test_seReg : isNext (fun t => t.pc == 0x204#16)
    (step (placed 0x5120 ((State.reset.setReg 1 7#8).setReg 2 7#8))) = true := by decide +kernel

/-- Q9 under `UNKNOWN`. -/
theorem test_seReg_unknown : isNext (fun t => reports t .unknownInstruction 0x5121#16 0x200#16 && t.pc == 0x202#16)
    (step (placed 0x5121 (withParams { hardwareParams with decode59 := .unknown }))) = true := by decide +kernel

/-- Q10 under `IGNORE`. -/
theorem test_sneReg : isNext (fun t => t.pc == 0x204#16)
    (step (placed 0x912F ((State.reset.setReg 1 3#8).setReg 2 4#8))) = true := by decide +kernel

/-- F15. -/
theorem test_sneReg_same : isNext (fun t => t.pc == 0x202#16)
    (step (placed 0x9110 (State.reset.setReg 1 7#8))) = true := by decide +kernel

/-- F17. -/
theorem test_jpV0 : isNext (fun t => t.pc == 0x10FE#16)
    (step (placed 0xBFFF (State.reset.setReg 0 0xFF#8))) = true := by decide +kernel

/-- F18. -/
theorem test_jpV0_vx : isNext (fun t => t.pc == 0x240#16)
    (step (placed 0xB230 ((withParams { hardwareParams with jumpOffset := .vx }).setReg 2 0x10#8))) = true := by
  decide +kernel

/-! ## Display -/

/-- S6. -/
theorem test_drw_wraps : isNext (fun t => t.fb.toList.take 8 == [0xF0#8, 0#8, 0#8, 0#8, 0#8, 0#8, 0#8, 0x0F#8]
    && t.reg VF == 0#8
    && t.out.displayChanged)
    (step (placed 0xD011 (putBytes 0x300 [0xFF#8] ((State.reset.setReg 0 60#8).setI 0x300#16)))) = true := by
  decide +kernel

/-- D9: the coordinate is the old `VF`. -/
theorem test_drw_vf_coordinate : isNext (fun t => t.fb.toList.take 3 == [0#8, 0x80#8, 0#8] && t.reg VF == 0#8)
    (step (placed 0xDF11 (putBytes 0x300 [0x80#8] ((State.reset.setReg VF 8#8).setI 0x300#16)))) = true := by
  decide +kernel

/-- By R121 worked by hand (notes/assumptions/12.md): over a lit display the first of two equal draws turns its pixels off and
collides, the second meets none and turns them on again. -/
theorem test_drw_twice_over_lit_pixels :
    let s := putBytes 0x300 [0xFF#8] { State.reset.setI 0x300#16 with fb := Vector.replicate 256 0xFF#8 }
    isNext (fun t => t.reg VF == 1#8 && t.fb[0] == 0#8 &&
      isNext (fun w => w.reg VF == 0#8 && w.fb[0] == 0xFF#8) (exec (.drw 0 1 1#4) t)) (exec (.drw 0 1 1#4) s) = true := by
  decide +kernel

/-! ## Classes A, E and F -/

/-- M1. -/
theorem test_ldI : isNext (fun t => t.i == 0x123#16) (step (placed 0xA123 State.reset)) = true := by decide +kernel

/-- M2. -/
theorem test_skp : isNext (fun t => t.pc == 0x204#16 && t.out.diag == none)
    (step (placed 0xE59E { State.reset.setReg 5 3#8 with keys := 8#16 })) = true := by decide +kernel

/-- M4. -/
theorem test_skp_reduces : isNext (fun t => t.pc == 0x204#16 && reports t .invalidKeyIndex 0xE59E#16 0x200#16)
    (step (placed 0xE59E { State.reset.setReg 5 0x13#8 with keys := 8#16 })) = true := by decide +kernel

/-- M3. -/
theorem test_sknp : isNext (fun t => t.pc == 0x202#16)
    (step (placed 0xE5A1 { State.reset.setReg 5 3#8 with keys := 8#16 })) = true := by decide +kernel

/-- M5. -/
theorem test_sknp_none : isNext (fun t => t.pc == 0x204#16) (step (placed 0xE0A1 State.reset)) = true := by
  decide +kernel

/-- M6. -/
theorem test_ldVxDt : isNext (fun t => t.reg 3 == 0x3C#8 && t.dt == 0x3C#8)
    (step (placed 0xF307 { State.reset with dt := 0x3C#8 })) = true := by decide +kernel

/-- S7. -/
theorem test_ldVxK_waits : isNext (fun t => t.pc == 0x200#16 && t.out.awaitingKey && t.reg 5 == 9#8)
    (step (placed 0xF50A (State.reset.setReg 5 9#8))) = true := by decide +kernel

/-- M7. -/
theorem test_ldVxK : isNext (fun t => t.reg 2 == 5#8 && t.pc == 0x202#16 && !t.out.awaitingKey)
    (step (placed 0xF20A { State.reset with keys := 0x0120#16 })) = true := by decide +kernel

/-- M9. -/
theorem test_ldDtVx : isNext (fun t => t.dt == 0x3C#8 && t.st == 0#8)
    (step (placed 0xF115 (State.reset.setReg 1 0x3C#8))) = true := by decide +kernel

/-- M10. -/
theorem test_ldStVx : isNext (fun t => t.st == 2#8 && buzzer t && t.dt == 0#8)
    (step (placed 0xF118 (State.reset.setReg 1 2#8))) = true := by decide +kernel

/-- S4. -/
theorem test_addI_masks : isNext (fun t => t.i == 0x002#16 && t.reg VF == 1#8)
    (step (placed 0xF31E ((State.reset.setReg 3 4#8).setI 0xFFE#16))) = true := by decide +kernel

/-- M11. -/
theorem test_addI : isNext (fun t => t.i == 0x210#16 && t.reg VF == 7#8)
    (step (placed 0xF01E (((State.reset.setReg 0 0x10#8).setReg VF 7#8).setI 0x200#16))) = true := by decide +kernel

/-- M16. -/
theorem test_ldF : isNext (fun t => t.i == 0x132#16) (step (placed 0xF029 (State.reset.setReg 0 0xA#8))) = true := by
  decide +kernel

/-- M18. -/
theorem test_ldF_invalid : isNext (fun t => t.i == 0x300#16 && reports t .invalidDigitIndex 0xF029#16 0x200#16)
    (step (placed 0xF029 ((State.reset.setReg 0 0x10#8).setI 0x300#16))) = true := by decide +kernel

/-- S8. -/
theorem test_ldB : isNext (fun t => bytesFrom t.mem 0x300 3 == [1#8, 5#8, 6#8])
    (step (placed 0xF733 ((State.reset.setReg 7 156#8).setI 0x300#16))) = true := by decide +kernel

/-- M21. -/
theorem test_ldB_out_of_bounds : isNext (fun t => reports t .bcdOutOfBounds 0xF033#16 0x200#16
    && bytesFrom t.mem 0xFFD 3 == [0#8, 0#8, 0#8])
    (step (placed 0xF033 ((State.reset.setReg 0 255#8).setI 0xFFE#16))) = true := by decide +kernel

/-- M23. -/
theorem test_stRegs : isNext (fun t => bytesFrom t.mem 0x300 4 == [1#8, 2#8, 3#8, 0#8] && t.i == 0x300#16)
    (step (placed 0xF255 ((((State.reset.setReg 0 1#8).setReg 1 2#8).setReg 2 3#8).setI 0x300#16))) = true := by
  decide +kernel

/-- M25 under `WARN`. -/
theorem test_stRegs_refused : isTransferRefusal
    (step (placed 0xFF55 ((withParams { hardwareParams with transfer := .warn }).setI 0xFF1#16))) = true := by
  decide +kernel

/-- M27: glyph 0 of the default font. -/
theorem test_ldRegs_font : isNext (fun t => t.v.toList.take 5 == [0xF0#8, 0x90#8, 0x90#8, 0x90#8, 0xF0#8])
    (step (placed 0xF465 (State.reset.setI 0x100#16))) = true := by decide +kernel

/-- M28 under `REJECT`. -/
theorem test_ldRegs_rejected : isNext (fun t => reports t .registerTransferOutOfBounds 0xF465#16 0x200#16
    && t.reg 0 == 9#8) (step (placed 0xF465 ((State.reset.setReg 0 9#8).setI 0xFFC#16))) = true := by decide +kernel

/-! ## Host operations -/

/-- M30 and the first tick of M31. -/
theorem test_tickTimers :
    (tickTimers { State.reset with dt := 1#8 }).dt = 0#8 ∧ (tickTimers { State.reset with dt := 1#8 }).st = 0#8 ∧
    (tickTimers { State.reset with st := 2#8 }).st = 1#8 := by decide +kernel

/-- The ROM of S5 in memory. -/
theorem test_load : bytesFrom (load [0x60#8, 0x05#8, 0x61#8, 0x03#8, 0x80#8, 0x14#8] State.reset).mem 0x1FF 8 =
    [0#8, 0x60#8, 0x05#8, 0x61#8, 0x03#8, 0x80#8, 0x14#8, 0#8] := by decide +kernel

/-! ## Witnesses: for every statement with hypotheses, states and operands that meet them -/

theorem test_hyp_decodeOfEncode : (Instr.sys 0x0EF#12).wellFormed = true ∧
    (Instr.drw 15 15 15#4).wellFormed = true := by
  decide

theorem test_hyp_encodeOfDecode :
    decodeWord .ignore 0x5121#16 = .ok (.seReg 1 2) ∧ decodeWord .ignore 0x912F#16 = .ok (.sneReg 1 2) ∧
    decodeWord .unknown 0x00E0#16 = .ok .cls := ⟨rfl, rfl, rfl⟩

theorem test_hyp_unknownWords :
    UnknownWord .ignore 0x8128#16 ∧ UnknownWord .ignore 0xE000#16 ∧ UnknownWord .ignore 0xFFFF#16 ∧
    UnknownWord .unknown 0x5121#16 ∧ ¬ UnknownWord .ignore 0x5121#16 ∧ ¬ UnknownWord .unknown 0x5120#16 := by
  refine ⟨?_, ?_, ?_, ?_, ?_, ?_⟩ <;> unfold UnknownWord <;> decide

/-- Both ends of the fetch window, with the unknown word `8128` there. -/
theorem test_hyp_unknownWords_step : [0x200#16, 0xFFE#16].all (fun a =>
    let s := placed 0x8128 { State.reset with pc := a }
    decide (0x200 ≤ s.pc.toNat ∧ s.pc.toNat ≤ 0xFFE ∧ s.params.decode59 = .ignore ∧ (0x8128#16).toNat =
      (byteAt s.mem s.pc.toNat).toNat * 256 + (byteAt s.mem (s.pc.toNat + 1)).toNat)) = true := by decide +kernel

/-- The fields of `D125`. -/
theorem test_hyp_opcodeMap_fields :
    (1 : Reg).val = (0xD125#16).toNat / 256 % 16 ∧ (2 : Reg).val = (0xD125#16).toNat / 16 % 16 ∧
    (5#4).toNat = (0xD125#16).toNat % 16 ∧ (0x25#8).toNat = (0xD125#16).toNat % 256 ∧
    (0x125#12).toNat = (0xD125#16).toNat % 4096 := by decide

/-- A word at an end of its range for every row of the opcode map with a mask. -/
theorem test_hyp_opcodeMap_rows : ([(0x0FFF#16, 0xF000#16, 0x0000#16), (0x1FFF#16, 0xF000#16, 0x1000#16),
      (0x2FFF#16, 0xF000#16, 0x2000#16), (0x3FFF#16, 0xF000#16, 0x3000#16), (0x4FFF#16, 0xF000#16, 0x4000#16),
      (0x5FFF#16, 0xF000#16, 0x5000#16), (0x5FF0#16, 0xF00F#16, 0x5000#16), (0x6FFF#16, 0xF000#16, 0x6000#16),
      (0x7FFF#16, 0xF000#16, 0x7000#16), (0x8FF0#16, 0xF00F#16, 0x8000#16), (0x8FF1#16, 0xF00F#16, 0x8001#16),
      (0x8FF2#16, 0xF00F#16, 0x8002#16), (0x8FF3#16, 0xF00F#16, 0x8003#16), (0x8FF4#16, 0xF00F#16, 0x8004#16)] ++
      [(0x8FF5#16, 0xF00F#16, 0x8005#16), (0x8FF6#16, 0xF00F#16, 0x8006#16), (0x8FF7#16, 0xF00F#16, 0x8007#16),
      (0x8FFE#16, 0xF00F#16, 0x800E#16), (0x9FFF#16, 0xF000#16, 0x9000#16), (0x9FF0#16, 0xF00F#16, 0x9000#16),
      (0xAFFF#16, 0xF000#16, 0xA000#16), (0xBFFF#16, 0xF000#16, 0xB000#16), (0xCFFF#16, 0xF000#16, 0xC000#16),
      (0xDFFF#16, 0xF000#16, 0xD000#16), (0xEF9E#16, 0xF0FF#16, 0xE09E#16), (0xEFA1#16, 0xF0FF#16, 0xE0A1#16)] ++
      [(0xFF07#16, 0xF0FF#16, 0xF007#16), (0xFF0A#16, 0xF0FF#16, 0xF00A#16), (0xFF15#16, 0xF0FF#16, 0xF015#16),
      (0xFF18#16, 0xF0FF#16, 0xF018#16), (0xFF1E#16, 0xF0FF#16, 0xF01E#16), (0xFF29#16, 0xF0FF#16, 0xF029#16),
      (0xFF33#16, 0xF0FF#16, 0xF033#16), (0xFF55#16, 0xF0FF#16, 0xF055#16), (0xFF65#16, 0xF0FF#16, 0xF065#16)]).all
    (fun r => decide (r.1 &&& r.2.1 = r.2.2 ∧ r.1 ≠ 0x00E0#16 ∧ r.1 ≠ 0x00EE#16)) = true := by decide +kernel

theorem test_hyp_legacy : [0x0000#16, 0x00E1#16, 0x00EF#16, 0x0FFF#16].all
    (fun op => decide (op.toNat / 4096 = 0 ∧ op ≠ 0x00E0#16 ∧ op ≠ 0x00EE#16)) = true := by decide +kernel

/-- The window's two ends; an instruction runs at each. -/
theorem test_hyp_stepRuns : Fetches (placed 0x6A42 State.reset) (.ldByte 10 0x42#8) ∧
    Fetches (placed 0x6A42 { State.reset with pc := 0xFFE#16 }) (.ldByte 10 0x42#8) :=
  ⟨fetches_of_check (by decide +kernel), fetches_of_check (by decide +kernel)⟩

theorem test_hyp_outsideWindow : [0x0000#16, 0x01FF#16, 0x0FFF#16, 0xFFFF#16].all (fun a =>
    let s := { State.reset with pc := a }
    decide (s.pc.toNat < 0x200 ∨ 0xFFE < s.pc.toNat)) = true := by decide +kernel

/-- A report of the sequencer, and one of an instruction. -/
theorem test_hyp_diagnostics :
    (∃ t, step { State.reset with pc := 0xFFF#16 } = .next t ∧
      t.out.diag = some ⟨.programCounterOutOfRange, none, 0xFFF#16⟩) ∧
    (∃ t, step State.reset = .next t ∧ t.out.diag = some ⟨.legacyMachineCall, some 0x0000#16, 0x200#16⟩) := by
  exact ⟨exists_next (by decide +kernel), exists_next (by decide +kernel)⟩

/-- Steps that set each outcome bit, and one that sets none. -/
theorem test_hyp_outcomeBits :
    isNext (fun t => t.out.displayChanged && !t.out.awaitingKey) (step (placed 0x00E0 State.reset)) = true ∧
    isNext (fun t => t.out.displayChanged) (step (placed 0xD001 (State.reset.setI 0xFFF#16))) = true ∧
    isNext (fun t => !t.out.displayChanged) (step (placed 0xD002 (State.reset.setI 0xFFF#16))) = true ∧
    isNext (fun t => t.out.awaitingKey && !t.out.displayChanged) (step (placed 0xF00A State.reset)) = true := by
  decide +kernel

/-- The flag hypotheses of the two-operand instructions hold with 1 and with 0, at the sums and differences where they
change. -/
theorem test_hyp_aluFlags :
    1 = (if ((0x80#8).toNat + (0x80#8).toNat > 255) then 1 else 0) ∧
    0 = (if ((0xFF#8).toNat + (0x00#8).toNat > 255) then 1 else 0) ∧
    1 = (if ((0x07#8).toNat ≥ (0x07#8).toNat) then 1 else 0) ∧
    0 = (if ((0x06#8).toNat ≥ (0x07#8).toNat) then 1 else 0) := by decide

/-- The flag hypotheses of the shifts, from the register that each source parameter names. -/
theorem test_hyp_shiftFlags :
    1 = ((State.reset.setReg 0 0x05#8).reg (shiftedRegister (State.reset.setReg 0 0x05#8) 0 1)).toNat % 2 ∧
    0 = ((State.reset.setReg 0 0x7F#8).reg (shiftedRegister (State.reset.setReg 0 0x7F#8) 0 1)).toNat / 128 ∧
    1 = (((withParams { hardwareParams with shiftSource := .y }).setReg 1 0x80#8).reg
      (shiftedRegister ((withParams { hardwareParams with shiftSource := .y }).setReg 1 0x80#8) 0 1)).toNat / 128 := by
  decide +kernel

theorem test_hyp_readOrders : (0 : Reg) ≠ VF ∧ (1 : Reg) ≠ VF ∧
    ∀ i ∈ [Instr.addReg 0 1, .sub 0 1, .shr 0 1, .subn 0 1, .shl 0 1],
      i ∈ [Instr.addReg 0 1, .sub 0 1, .shr 0 1, .subn 0 1, .shl 0 1] := by decide

/-- `VF` changed by a flag, by a draw, by `Fx1E` and as a destination. -/
theorem test_hyp_vfWriters :
    isNext (fun t => t.reg VF != State.reset.reg VF) (exec (.sub 0 1) State.reset) = true ∧
    isNext (fun t => t.reg VF != (State.reset.setReg VF 2#8).reg VF)
      (exec (.drw 0 1 0#4) (State.reset.setReg VF 2#8)) = true ∧
    isNext (fun t => t.reg VF != (State.reset.setReg 0 1#8).reg VF)
      (exec (.addI 0) ((State.reset.setReg 0 1#8).setI 0xFFF#16)) = true ∧
    isNext (fun t => t.reg VF != State.reset.reg VF) (exec (.ldByte VF 1#8) State.reset) = true := by decide +kernel

/-- The stack empty, with one entry, with one place left, and full. -/
theorem test_hyp_stack : StackOk State.reset ∧ State.reset.sp = 0 ∧
    ∀ n ∈ [1, 15, 16], StackOk { State.reset with sp := n } ∧ 0 < n ∧
      (n < State.reset.params.stackCapacity ∨ n = State.reset.params.stackCapacity) := by decide +kernel

/-- The words of the statements that compute one from its fields, at both ends. -/
theorem test_hyp_words :
    (0x2000#16).toNat = 0x2000 + (0x000#12).toNat ∧ (0x2FFF#16).toNat = 0x2000 + (0xFFF#12).toNat ∧
    (0x1000#16).toNat = 0x1000 + (0x000#12).toNat ∧ (0x1FFF#16).toNat = 0x1000 + (0xFFF#12).toNat ∧
    (0x7000#16).toNat = 0x7000 + (0 : Reg).val * 256 + (0x00#8).toNat ∧
    (0x7FFF#16).toNat = 0x7000 + (15 : Reg).val * 256 + (0xFF#8).toNat ∧
    (0xF00A#16).toNat = 0xF00A + (0 : Reg).val * 256 ∧ (0xFF0A#16).toNat = 0xF00A + (15 : Reg).val * 256 := by
  decide +kernel

theorem test_hyp_jumpTargets :
    [0x000#12, 0x1FF#12, 0xFFF#12].all (fun a => decide (a.toNat < 0x200 ∨ a.toNat = 0xFFF)) = true ∧
    Fetches (placed 0x1200 State.reset) (.jp 0x200#12) ∧ (placed 0x1200 State.reset).pc.toNat = (0x200#12).toNat :=
  ⟨by decide +kernel, fetches_of_check (by decide +kernel), by decide +kernel⟩

theorem test_hyp_jumpOffset :
    (0 : Reg).val = (if State.reset.params.jumpOffset = .v0 then 0 else (0xFFF#12).toNat / 256) ∧
    (15 : Reg).val = (if (withParams { hardwareParams with jumpOffset := .vx }).params.jumpOffset = .v0 then 0
      else (0xFFF#12).toNat / 256) := by decide +kernel

/-- A call that pushes, from the last free place; the return is the state right after it. -/
theorem test_hyp_callReturn : StackOk { State.reset with sp := 15 } ∧ 15 < State.reset.params.stackCapacity ∧
    isNext (fun t => t.sp == 16) (exec (.call 0x300#12) { State.reset with sp := 15 }) = true := by decide +kernel

/-- A one-row sprite of one bit in the last byte of memory, drawn over a clear and over a set pixel. -/
theorem test_hyp_draw : [clearFramebuffer, Vector.replicate 256 0xFF#8].all (fun fb =>
    let s := putBytes 0xFFF [0x80#8] { State.reset.setI 0xFFF#16 with fb := fb }
    decide (s.i.toNat + (1#4).toNat ≤ 0x1000) && (byteAt s.mem (s.i.toNat + 0)).getLsbD 7 &&
      decide ((0 : Col).val = ((s.reg 0).toNat + 0) % 64 ∧ (0 : Row).val = ((s.reg 1).toNat + 0) % 32)) = true ∧
    pixel (Vector.replicate 256 0xFF#8) 0 0 = true ∧ pixel clearFramebuffer 0 0 = false := by decide +kernel

/-- The pixel of the sprite of `test_hyp_draw` is one that it covers. -/
theorem test_hyp_draw_covers (s : State) (h : (byteAt s.mem (s.i.toNat + 0)).getLsbD 7 = true)
    (hc : (0 : Col).val = ((s.reg 0).toNat + 0) % 64) (hr : (0 : Row).val = ((s.reg 1).toNat + 0) % 32) :
    SpriteCovers s 0 1 1#4 0 0 := ⟨0, 0, by decide, by decide, h, hc, hr⟩

/-- A sprite of no rows covers nothing. -/
theorem test_hyp_draw_nothing (s : State) (x y : Reg) :
    ¬ ∃ c r, SpriteCovers s x y 0#4 c r ∧ pixel s.fb c r = true := by
  rintro ⟨c, r, ⟨k, j, hk, _⟩, _⟩
  exact absurd hk (Nat.not_lt_zero k)

theorem test_hyp_draw_beyond : 0x1000 < (State.reset.setI 0xFFF#16).i.toNat + (2#4).toNat ∧
    (0xD012#16).toNat = 0xD000 + (0 : Reg).val * 256 + (1 : Reg).val * 16 + (2#4).toNat := by decide +kernel

/-- A first draw; the second may start from the very state it leaves. -/
theorem test_hyp_drawTwice : ∃ t, exec (.drw 0 1 5#4) (State.reset.setI 0x100#16) = .next t ∧ t.i = 0x100#16 ∧
    t.reg 0 = 0#8 ∧ t.reg 1 = 0#8 ∧ t.mem = [] := exists_next (by decide +kernel)

/-- A first draw of a sprite with a bit set, over a clear display; the second may start from the very state it leaves. -/
theorem test_hyp_drawTwice_clear :
    (∃ t, exec (.drw 0 1 5#4) (State.reset.setI 0x100#16) = .next t ∧ t.i = 0x100#16 ∧ t.reg 0 = 0#8 ∧ t.reg 1 = 0#8 ∧
      t.mem = []) ∧
    (byteAt (State.reset.setI 0x100#16).mem ((State.reset.setI 0x100#16).i.toNat + 0)).getLsbD (7 - 0) = true ∧
    ∀ c r, pixel (State.reset.setI 0x100#16).fb c r = false :=
  ⟨exists_next (by decide +kernel), by decide +kernel, Laws.pixel_clearFramebuffer⟩

/-- A sprite of no rows has no bit set. -/
theorem test_hyp_drawTwice_nothing (s : State) : ¬ ∃ k j, k < (0#4).toNat ∧ j < 8 ∧ SpriteHasBit s k j := by
  rintro ⟨k, j, hk, _⟩
  exact absurd hk (Nat.not_lt_zero k)

/-- A pressed key and one that is not, at both ends of the reduction. -/
theorem test_hyp_keys : [(0x03#8, true), (0x0F#8, false), (0x10#8, false), (0x13#8, true)].all (fun q =>
    let s := { State.reset.setReg 5 q.1 with keys := 0x0008#16 }
    decide (q.2 = s.keys.getLsbD ((s.reg 5).toNat % 16) ∧ s.keys ≠ 0#16)) = true ∧ State.reset.keys = 0#16 := by
  decide +kernel

theorem test_hyp_keyWait : Fetches (placed 0xF50A State.reset) (.ldVxK 5) ∧
    (placed 0xF50A State.reset).keys = 0#16 := ⟨fetches_of_check (by decide +kernel), by decide +kernel⟩

/-- The sums of `Fx1E` just below and just above the limit. -/
theorem test_hyp_addToIndex : [(0xFE#8, 0xFFF), (0xFF#8, 0x1000)].all (fun q =>
    let s := (State.reset.setReg 0 q.1).setI 0xF01#16
    decide (q.2 = s.i.toNat + (s.reg 0).toNat)) = true := by decide +kernel

theorem test_hyp_glyph : (0xFF29#16).toNat = 0xF029 + (15 : Reg).val * 256 ∧
    ((State.reset.setReg 15 0x0F#8).reg 15).toNat ≤ 15 ∧ 15 < ((State.reset.setReg 15 0x10#8).reg 15).toNat := by
  decide +kernel

theorem test_hyp_bcd : (0xFF33#16).toNat = 0xF033 + (15 : Reg).val * 256 ∧
    [0x200#16, 0xFFD#16].all (fun i => let s := State.reset.setI i
      decide (Memory.wf s.mem = true ∧ 0x200 ≤ s.i.toNat ∧ s.i.toNat ≤ 0xFFD)) = true ∧
    [0x1FF#16, 0xFFE#16].all (fun i => let s := State.reset.setI i
      decide (Memory.wf s.mem = true ∧ (s.i.toNat < 0x200 ∨ 0xFFD < s.i.toNat))) = true := by decide +kernel

/-- The ends of the ranges of the transfers, with all 16 registers. -/
theorem test_hyp_transfers :
    [0x200#16, 0xFF0#16].all (fun i => let s := State.reset.setI i
      decide (Memory.wf s.mem = true ∧ 0x200 ≤ s.i.toNat ∧ s.i.toNat + (15 : Reg).val ≤ 0xFFF)) = true ∧
    [0x000#16, 0xFF0#16].all (fun i => decide ((State.reset.setI i).i.toNat + (15 : Reg).val ≤ 0xFFF)) = true := by
  decide +kernel

/-- The same under each policy, where the check fails. -/
theorem test_hyp_transferPolicy :
    [0x1FF#16, 0xFF1#16].all (fun i => let s := State.reset.setI i
      decide (s.params.transfer = .reject ∧ (s.i.toNat < 0x200 ∨ 0xFFF < s.i.toNat + (15 : Reg).val))) = true ∧
    [0x1FF#16, 0xFF1#16].all (fun i => let s := (withParams { hardwareParams with transfer := .warn }).setI i
      decide (Memory.wf s.mem = true ∧ s.params.transfer = .warn ∧
        (s.i.toNat < 0x200 ∧ s.i.toNat + (15 : Reg).val ≤ 0xFFF ∨ 0xFFF < s.i.toNat + (15 : Reg).val))) = true := by
  decide +kernel

/-- A store of all registers, and what it leaves for a load and for a fetch (`6005`). -/
theorem test_hyp_stored :
    (∃ t, exec (.stRegs 15) (((State.reset.setReg 0 0x60#8).setReg 1 0x05#8).setI 0x300#16) = .next t ∧
      t.i = 0x300#16) ∧
    (1 : Reg).val = (0 : Reg).val + 1 ∧ (1 : Reg) ≤ 15 ∧
    decode State.reset.params.decode59 [0x60#8, 0x05#8] = .ok (.ldByte 0 0x05#8, []) :=
  ⟨exists_next (by decide +kernel), rfl, by decide, rfl⟩

/-- Every operation of the host, on the reset state. -/
theorem test_hyp_hostStep :
    ∀ op ∈ [HostOp.reset, .load [0x60#8], .setKeys 1#16, .step, .tickTimers, .forcePc 0x300#16],
    isNext (fun _ => true) (hostStep op State.reset) = true := by decide +kernel

/-- The addresses of a loaded ROM of two bytes, and their neighbours. -/
theorem test_hyp_load : Memory.wf State.reset.mem = true ∧
    (∀ a ∈ [0x200, 0x201], 0x200 ≤ a ∧ a < 0x200 + min [0x60#8, 0x05#8].length 0xE00) ∧
    (∀ a ∈ [0x1FF, 0x202], a < 0x200 ∨ 0x200 + min [0x60#8, 0x05#8].length 0xE00 ≤ a) := by decide

theorem test_hyp_timers :
    isNext (fun t => t.dt != 0#8) (exec (.ldDtVx 0) (State.reset.setReg 0 1#8)) = true ∧
    isNext (fun t => t.st != 0#8) (exec (.ldStVx 0) (State.reset.setReg 0 1#8)) = true := by decide +kernel

/-- Instructions that change `I`, the stack, the depth, the display and memory. -/
theorem test_hyp_writers :
    isNext (fun t => t.i != 0#16) (exec (.ldI 1#12) State.reset) = true ∧
    isNext (fun t => t.stack != State.reset.stack && t.sp != 0) (exec (.call 0x300#12) State.reset) = true ∧
    isNext (fun t => t.fb[0] != 0#8) (exec (.drw 0 1 1#4) (State.reset.setI 0x100#16)) = true ∧
    isNext (fun t => byteAt t.mem 0x300 != 0#8)
      (exec (.stRegs 0) ((State.reset.setReg 0 1#8).setI 0x300#16)) = true := by decide +kernel

theorem test_hyp_otherThanKeyInstructions :
    (∀ x, Instr.cls ≠ .skp x ∧ Instr.cls ≠ .sknp x ∧ Instr.cls ≠ .ldVxK x) ∧
    isNext (fun _ => true) (exec .cls State.reset) = true := ⟨by simp, by decide +kernel⟩

/-- The invariant, in a state where a step goes on and in one whose step is refused. -/
theorem test_hyp_invariant : Inv State.reset ∧
    State.reset.pc.toNat ≤ 0x10FE ∧ State.reset.stack.all (fun a => decide (a.toNat ≤ 0x1000)) = true ∧
    isNext (fun _ => true) (step State.reset) = true ∧
    Inv (placed 0xFF55 ((withParams { hardwareParams with transfer := .warn }).setI 0xFF1#16)) ∧
    0xFFF < (0xFF1#16).toNat + (15 : Reg).val := by decide +kernel

/-- A legal capacity above the default, and the least legal one. -/
theorem test_hyp_legalParameters : Params.legal { hardwareParams with stackCapacity := 32 } ∧
    Params.legal { hardwareParams with stackCapacity := 16 } ∧
    ¬ Params.legal { hardwareParams with stackCapacity := 15 } := by decide

theorem test_hyp_reachable : Reachable (resetOp { State.reset with params := hardwareParams }) :=
  .reset hardwareParams (by decide)

end Sys2Proof.Tests
end

section
/-! The legacy machine calls (30_encoding.md R66, 42_control_flow.md R103): which words the decoder reads as one, that
such a word is the encoding of the call it decodes to, and that a report leaves everything else as it was. -/

namespace Sys2Proof.Proofs

open Sys2Proof Sys2Proof.Machine Sys2Proof.Safety Sys2Proof.Laws

/-! ### Class 0 -/

theorem opClass_eq_zero {op : Word} (hclass : op.toNat / 4096 = 0) : opClass op = 0x0#4 := by
  apply BitVec.eq_of_toNat_eq
  rw [toNat_opClass, hclass]
  rfl

theorem toNat_fieldAddr_of_class0 {op : Word} (hclass : op.toNat / 4096 = 0) : (fieldAddr op).toNat = op.toNat := by
  rw [toNat_fieldAddr]
  omega

/-- A class-0 word is the pattern `0nnn` of its own address field. -/
theorem wordAddr_fieldAddr_of_class0 {op : Word} (hclass : op.toNat / 4096 = 0) :
    wordAddr 0x0 (fieldAddr op) = op := by
  apply BitVec.eq_of_toNat_eq
  rw [toNat_wordAddr, toNat_fieldAddr_of_class0 hclass]
  simp

theorem decodeWord_of_class0 (m : Decode59) {op : Word} (hclass : op.toNat / 4096 = 0) :
    decodeWord m op = .ok (decodeClass0 op) := by
  simp [decodeWord, opClass_eq_zero hclass]

/-- Class 0 is told apart on the whole address: what is neither `0E0` nor `0EE` there is a legacy call (R63, R66). -/
theorem decodeClass0_eq_sys {op : Word} (hcls : (fieldAddr op).toNat ≠ 0x0E0) (hret : (fieldAddr op).toNat ≠ 0x0EE) :
    decodeClass0 op = .sys (fieldAddr op) := by
  unfold decodeClass0
  split
  · exact absurd ‹_› hcls
  · exact absurd ‹_› hret
  · rfl

theorem decodeWord_eq_sys (m : Decode59) {op : Word} (hclass : op.toNat / 4096 = 0) (hcls : op ≠ 0x00E0#16)
    (hret : op ≠ 0x00EE#16) : decodeWord m op = .ok (.sys (fieldAddr op)) := by
  have haddr := toNat_fieldAddr_of_class0 hclass
  rw [decodeWord_of_class0 m hclass, decodeClass0_eq_sys]
  · exact fun h => hcls (BitVec.eq_of_toNat_eq (haddr.symm.trans h))
  · exact fun h => hret (BitVec.eq_of_toNat_eq (haddr.symm.trans h))

/-! ### Reports -/

/-- The report of an instruction carries its word and its own address, and everything else stays (R150, R152). -/
theorem onlyReports_warn (k : DiagKind) (i : Instr) (s : State) : OnlyReports k (encode i) s (warn k i s) := by
  simp [OnlyReports, SameOutside]

theorem exec_sys (addr : Addr) (s : State) :
    exec (.sys addr) s = .next (warn .legacyMachineCall (.sys addr) s) := rfl

/-- Settles O5: the address field is the whole word, so the call decoded from it encodes to that word again, and the
report that is all its execution does carries it. -/
theorem legacyMachineCallsAreReportedAndIgnored : Obligations.LegacyMachineCallsAreReportedAndIgnored := by
  intro m op hclass hcls hret
  refine ⟨fieldAddr op, toNat_fieldAddr_of_class0 hclass, decodeWord_eq_sys m hclass hcls hret, fun s => ?_⟩
  have hword : encode (.sys (fieldAddr op)) = op := wordAddr_fieldAddr_of_class0 hclass
  have hreport := onlyReports_warn .legacyMachineCall (.sys (fieldAddr op)) s
  rw [hword] at hreport
  exact ⟨_, exec_sys (fieldAddr op) s, hreport⟩

end Sys2Proof.Proofs
end

section
/-! The addition of an immediate (41_alu.md R83): the word that is read as one, and that it writes one register and
nothing else. -/

namespace Sys2Proof.Proofs

open Sys2Proof Sys2Proof.Machine Sys2Proof.Safety Sys2Proof.Laws

/-! ### The pattern `cxkk` -/

/-- A word is the pattern `cxkk` as soon as it has the pattern's number. -/
theorem eq_wordXKK_of_toNat {op : Word} {c : Nibble} {x : Reg} {kk : Byte}
    (h : op.toNat = c.toNat * 4096 + x.val * 256 + kk.toNat) : op = wordXKK c x kk :=
  BitVec.eq_of_toNat_eq (h.trans (toNat_wordXKK c x kk).symm)

theorem decodeWord_wordXKK_7 (m : Decode59) (x : Reg) (kk : Byte) :
    decodeWord m (wordXKK 0x7 x kk) = .ok (.addByte x kk) := by
  simp [decodeWord]

/-! ### Register writes -/

/-- A register write changes no other register and no other part of the state (R8, R20). -/
theorem onlyRegs_setReg (s : State) (r : Reg) (b : Byte) : OnlyRegs [r] s (s.setReg r b) := by
  refine ⟨fun q hq => reg_setReg_ne s r q b (List.ne_of_not_mem_cons hq), ?_⟩
  simp [SameOutside]

theorem exec_addByte (x : Reg) (kk : Byte) (s : State) :
    exec (.addByte x kk) s = .next (s.setReg x (s.reg x + kk)) := rfl

/-- Settles O12: the word is the pattern `7xkk`, and its execution is one write, to `Vx`, of a byte sum. -/
theorem addImmediateWrapsAndSetsNoFlag : Obligations.AddImmediateWrapsAndSetsNoFlag := by
  refine fun x kk => ⟨fun m op hop => ?decodes, fun s => ⟨_, exec_addByte x kk s, ?sum, onlyRegs_setReg s x _⟩⟩
  case decodes =>
    have hword : op = wordXKK 0x7 x kk := eq_wordXKK_of_toNat hop
    rw [hword, decodeWord_wordXKK_7]
  case sum => rw [reg_setReg_self, BitVec.toNat_add]

end Sys2Proof.Proofs
end

section
/-! The screen clear (42_control_flow.md R101): the one word that is read as it, and what it leaves on the display. -/

namespace Sys2Proof.Proofs

open Sys2Proof Sys2Proof.Machine Sys2Proof.Safety Sys2Proof.Laws

/-! ### The one word of the screen clear -/

theorem decodeClass0_eq_cls_iff (op : Word) : decodeClass0 op = .cls ↔ (fieldAddr op).toNat = 0x0E0 := by
  unfold decodeClass0
  split
  case h_1 hcls => exact iff_of_true rfl hcls
  case h_2 hret => exact iff_of_false nofun (by omega)
  case h_3 hcls _ => exact iff_of_false nofun hcls

theorem decodeClass8_ne_cls (op : Word) : decodeClass8 op ≠ .ok .cls := by
  unfold decodeClass8
  split <;> simp

/-- Classes 5 and 9 read no other instruction than the skip of their own row (R63). -/
theorem eq_of_decodeClass59_eq_ok {m : Decode59} {i j : Instr} {op : Word} (h : decodeClass59 m i op = .ok j) :
    i = j := by
  unfold decodeClass59 at h
  split at h
  case h_1 => exact Except.ok.inj h
  case h_2 =>
    split at h
    · exact Except.ok.inj h
    · cases h

theorem decodeClassE_ne_cls (op : Word) : decodeClassE op ≠ .ok .cls := by
  unfold decodeClassE
  split <;> simp

theorem decodeClassF_ne_cls (op : Word) : decodeClassF op ≠ .ok .cls := by
  unfold decodeClassF
  split <;> simp

/-- No class but class 0 has a row for the screen clear (R64). -/
theorem class0_of_decodeWord_eq_cls {m : Decode59} {op : Word} (h : decodeWord m op = .ok .cls) :
    op.toNat / 4096 = 0 := by
  rw [← toNat_opClass]
  unfold decodeWord at h
  split at h
  case h_1 hclass => exact hclass
  case h_6 => cases eq_of_decodeClass59_eq_ok h
  case h_9 => exact absurd h (decodeClass8_ne_cls op)
  case h_10 => cases eq_of_decodeClass59_eq_ok h
  case h_15 => exact absurd h (decodeClassE_ne_cls op)
  case h_16 => exact absurd h (decodeClassF_ne_cls op)
  all_goals cases h

theorem decodeWord_eq_cls_iff (m : Decode59) (op : Word) : decodeWord m op = .ok .cls ↔ op = 0x00E0#16 := by
  constructor
  · intro h
    have hclass := class0_of_decodeWord_eq_cls h
    rw [decodeWord_of_class0 m hclass] at h
    have haddr := (decodeClass0_eq_cls_iff op).mp (Except.ok.inj h)
    rw [toNat_fieldAddr_of_class0 hclass] at haddr
    exact BitVec.eq_of_toNat_eq haddr
  · rintro rfl
    rfl

/-! ### The cleared display -/

theorem getElem_clearFramebuffer (k : Nat) (h : k < 256) : clearFramebuffer[k] = 0#8 :=
  Vector.getElem_replicate h

theorem exec_cls (s : State) : exec .cls s = .next { s with fb := clearFramebuffer }.notifyDisplay := rfl

/-- Settles O22: a word read as the screen clear is of class 0 with the address `0E0`, so it is `00E0`; its execution
replaces the display by the clear one and notifies. -/
theorem clearScreenClearsAndNotifies : Obligations.ClearScreenClearsAndNotifies := by
  refine ⟨decodeWord_eq_cls_iff, fun s => ⟨_, exec_cls s, getElem_clearFramebuffer, rfl, ?frame⟩⟩
  case frame => simp [SameOutside, State.reg]

end Sys2Proof.Proofs
end

section
/-! The jump (42_control_flow.md R104): the word that is read as it, the report of the step after a jump out of the
fetch window, and the fixed point of a jump to its own address. -/

namespace Sys2Proof.Proofs

open Sys2Proof Sys2Proof.Machine Sys2Proof.Safety Sys2Proof.Laws

/-! ### The pattern `cnnn` -/

/-- A word is the pattern `cnnn` as soon as it has the pattern's number. -/
theorem eq_wordAddr_of_toNat {op : Word} {c : Nibble} {a : Addr} (h : op.toNat = c.toNat * 4096 + a.toNat) :
    op = wordAddr c a :=
  BitVec.eq_of_toNat_eq (h.trans (toNat_wordAddr c a).symm)

theorem decodeWord_wordAddr_1 (m : Decode59) (addr : Addr) : decodeWord m (wordAddr 0x1 addr) = .ok (.jp addr) := by
  simp [decodeWord]

/-! ### Steps -/

theorem step_of_fetches {s : State} {i : Instr} (h : Fetches s i) : step s = exec i (postFetch s) := by
  obtain ⟨hwindow, hword⟩ := (fetches_iff s i).mp h
  exact step_decoded hwindow hword

/-- A step does not see the outcome of the step before it (R33, R69). -/
theorem step_beginStep (s : State) : step (beginStep s) = step s := rfl

/-- A step outside the fetch window reports that, and everything else stays (R69, R150). -/
theorem step_outside_reports {s : State} (h : ¬ fetchable s.pc) :
    ∃ t d, step s = .next t ∧ t.out.diag = some d ∧ d.kind = .programCounterOutOfRange ∧ SameOutside [.out] s t := by
  refine ⟨_, _, step_outside h, rfl, rfl, ?frame⟩
  case frame => simp [SameOutside]

/-! ### Jumps -/

theorem exec_jp (addr : Addr) (s : State) : exec (.jp addr) s = .next (s.setPc (addr.setWidth 16)) := rfl

theorem toNat_jumpTarget (addr : Addr) : (addr.setWidth 16).toNat = addr.toNat :=
  BitVec.toNat_setWidth_of_le (by decide)

theorem sameOutside_setPc (s : State) (a : Word) : SameOutside [.pc] s (s.setPc a) := by
  simp [SameOutside]

theorem sameOutside_beginStep (s : State) : SameOutside [.out] s (beginStep s) := by
  simp [SameOutside]

/-- The post-fetch state taken back to the instruction's own address is the state the step began with (R69). -/
theorem postFetch_setPc_pc (s : State) : (postFetch s).setPc s.pc = beginStep s := rfl

/-- A jump to its own address only clears the outcome. -/
theorem step_jumpToSelf {s : State} {addr : Addr} (hfetch : Fetches s (.jp addr)) (hself : s.pc.toNat = addr.toNat) :
    step s = .next (beginStep s) := by
  have htarget : addr.setWidth 16 = s.pc := BitVec.eq_of_toNat_eq ((toNat_jumpTarget addr).trans hself.symm)
  rw [step_of_fetches hfetch, exec_jp, htarget, postFetch_setPc_pc]

/-- Settles O24: the word is the pattern `1nnn`, and its execution is one write, of the target to `PC`. A target below
`0x200` or at `0xFFF` is outside the fetch window, and a jump to its own address is a fixed point of `step`. -/
theorem jumpSetsPc : Obligations.JumpSetsPc := by
  refine fun addr => ⟨fun m op hop => ?decodes, fun s => ?jumps, fun s hfetch hself => ?loops⟩
  case decodes =>
    have hword : op = wordAddr 0x1 addr := eq_wordAddr_of_toNat hop
    rw [hword, decodeWord_wordAddr_1]
  case jumps =>
    refine ⟨_, exec_jp addr s, toNat_jumpTarget addr, sameOutside_setPc s _, fun hrange => step_outside_reports ?_⟩
    rw [setPc_pc, fetchable, toNat_jumpTarget, programBase]
    omega
  case loops =>
    have hstep := step_jumpToSelf hfetch hself
    exact ⟨_, hstep, rfl, sameOutside_beginStep s, (step_beginStep s).trans hstep⟩

end Sys2Proof.Proofs
end

section
/-! The key wait (44_timers_input_memory.md R136): the word that is read as it, the wait as a fixed point of `step`, and
the key it takes. -/

namespace Sys2Proof.Proofs

open Sys2Proof Sys2Proof.Machine Sys2Proof.Safety Sys2Proof.Laws

theorem decodeWord_wordXKK_F0A (m : Decode59) (x : Reg) : decodeWord m (wordXKK 0xF x 0x0A#8) = .ok (.ldVxK x) := by
  simp [decodeWord, decodeClassF]

/-! ### No key pressed -/

theorem exec_ldVxK_waits {s : State} (x : Reg) (hkeys : s.keys = 0#16) :
    exec (.ldVxK x) s = .next (s.setPc (s.pc - 2)).notifyAwaitingKey :=
  if_pos hkeys

theorem sameOutside_beginStep_notifyAwaitingKey (s : State) :
    SameOutside [.out] s (beginStep s).notifyAwaitingKey := by
  simp [SameOutside]

theorem sameOutside_setPc_notifyAwaitingKey (s : State) (a : Word) :
    SameOutside [.pc, .out] s (s.setPc a).notifyAwaitingKey := by
  simp [SameOutside]

theorem step_notifyAwaitingKey (s : State) : step s.notifyAwaitingKey = step s := rfl

/-- A wait only sets the outcome: taking `PC` back by 2 undoes the fetch's advance (R69, R136). -/
theorem step_keyWait {s : State} {x : Reg} (hfetch : Fetches s (.ldVxK x)) (hkeys : s.keys = 0#16) :
    step s = .next (beginStep s).notifyAwaitingKey := by
  have hback : (postFetch s).pc - 2 = s.pc := add_sub_cancel_right s.pc 2
  rw [step_of_fetches hfetch, exec_ldVxK_waits (s := postFetch s) x hkeys, hback, postFetch_setPc_pc]

/-! ### A key pressed -/

theorem exec_ldVxK_takes {s : State} (x : Reg) (hkeys : s.keys ≠ 0#16) :
    exec (.ldVxK x) s = .next (s.setReg x (lowestKey s.keys)) :=
  if_neg hkeys

/-- Settles O35: with no key pressed the execution rewinds `PC` and notifies, so a fetched wait is a fixed point of
`step`, which does not see the outcome before it; with one pressed it is one write, to `Vx`, of the lowest key. -/
theorem keyWaitRewindsOrTakesLowestKey : Obligations.KeyWaitRewindsOrTakesLowestKey := by
  refine fun x => ⟨fun m op hop => ?decodes, fun s hkeys => ?waits, fun s hkeys => ?takes,
    fun s hfetch hkeys => ?waitsAgain⟩
  case decodes =>
    have hword : op = wordXKK 0xF x 0x0A#8 := eq_wordXKK_of_toNat (hop.trans (by simp; omega))
    rw [hword, decodeWord_wordXKK_F0A]
  case waits => exact ⟨_, exec_ldVxK_waits x hkeys, rfl, rfl, sameOutside_setPc_notifyAwaitingKey s _⟩
  case takes =>
    obtain ⟨k, -, hpressed, hlowest, hk⟩ := lowestKey_spec s.keys hkeys
    refine ⟨_, exec_ldVxK_takes x hkeys, ?_, ?_, onlyRegs_setReg s x _⟩
    · rwa [reg_setReg_self, hk]
    · rwa [reg_setReg_self, hk]
  case waitsAgain =>
    have hstep := step_keyWait hfetch hkeys
    refine ⟨_, hstep, rfl, sameOutside_beginStep_notifyAwaitingKey s, ?fixed⟩
    case fixed => rw [step_notifyAwaitingKey, step_beginStep, hstep]

end Sys2Proof.Proofs
end

section
/-! The timers (60_exceptions.md R160, 44_timers_input_memory.md R137, R138): what a tick leaves in them, and
what each instruction can do to them. -/

namespace Sys2Proof.Proofs

open Sys2Proof Sys2Proof.Machine Sys2Proof.Safety Sys2Proof.Laws

/-! ### A tick -/

/-- A tick is a truncated decrement (R160). -/
theorem toNat_tickTimer (b : Byte) : (tickTimer b).toNat = if b.toNat > 0 then b.toNat - 1 else 0 := by
  unfold tickTimer
  split <;> split <;> bv_omega

theorem sameOutside_tickTimers (s : State) : SameOutside [.dt, .st] s (tickTimers s) := by
  simp [SameOutside]

/-! ### Operations that leave both timers alone -/

/-- Neither timer moves from `s` to `t`. -/
structure TimersKept (s t : State) : Prop where
  dt : t.dt = s.dt
  st : t.st = s.st

/-- A move to a next state that is known to keep the timers keeps them. -/
theorem TimersKept.of_next {s u t : State} (h : (.next u : Result) = .next t) (hu : TimersKept s u) :
    TimersKept s t :=
  next_inj.mp h ▸ hu

theorem timersKept_skipIf (s : State) (c : Bool) : TimersKept s (s.skipIf c) :=
  ⟨skipIf_dt s c, skipIf_st s c⟩

theorem timersKept_warnKeyIndex_skipIf (x : Reg) (i : Instr) (s : State) (c : Bool) :
    TimersKept s ((warnKeyIndex x i s).skipIf c) :=
  ⟨by simp, by simp⟩

theorem timersKept_indexOverflowFlag_setI (c : Bool) (s : State) (a : Word) :
    TimersKept s (indexOverflowFlag c (s.setI a)) :=
  ⟨by simp, by simp⟩

theorem timersKept_of_storeBytes {s t : State} {base : Nat} {bs : List Byte} (h : storeBytes s base bs = .next t) :
    TimersKept s t := by
  obtain ⟨-, rfl⟩ := storeBytes_next h
  exact ⟨rfl, rfl⟩

theorem timersKept_of_loadRegs {x : Reg} {s t : State} (h : loadRegs x s = .next t) : TimersKept s t :=
  .of_next (withBytes_next h).2 ⟨rfl, rfl⟩

/-- The range policy of R131 keeps the timers around a transfer that does: a report does not touch them. -/
theorem timersKept_of_transferByPolicy {ok : Bool} {i : Instr} {x : Reg} {go : State → Result} {s t : State}
    (hgo : ∀ {u}, go u = .next t → TimersKept u t) (h : transferByPolicy ok i x go s = .next t) :
    TimersKept s t := by
  obtain ⟨-, hrun⟩ | ⟨-, -, rfl⟩ | ⟨-, -, -, hrun⟩ := transferByPolicy_next h
  · exact hgo hrun
  · exact ⟨rfl, rfl⟩
  · exact ⟨(hgo hrun).dt, (hgo hrun).st⟩

/-! ### Instructions that branch and leave both timers alone -/

theorem timersKept_of_execRet {s t : State} (h : execRet s = .next t) : TimersKept s t := by
  unfold execRet at h
  split at h
  · exact .of_next h ⟨rfl, rfl⟩
  · obtain ⟨a, -, rfl⟩ := popPc_next h
    exact ⟨rfl, rfl⟩

theorem timersKept_of_execCall {addr : Addr} {s t : State} (h : execCall addr s = .next t) : TimersKept s t := by
  unfold execCall at h
  split at h
  · exact .of_next h ⟨rfl, rfl⟩
  · exact .of_next (pushThen_next h).2 ⟨rfl, rfl⟩

theorem timersKept_of_execDrw {x y : Reg} {n : Nibble} {s t : State} (h : execDrw x y n s = .next t) :
    TimersKept s t := by
  unfold execDrw at h
  split at h
  · exact .of_next (withBytes_next h).2 ⟨rfl, rfl⟩
  · exact .of_next h ⟨rfl, rfl⟩

theorem timersKept_of_exec_ldVxK {x : Reg} {s t : State} (h : exec (.ldVxK x) s = .next t) : TimersKept s t := by
  by_cases hkeys : s.keys = 0#16
  · exact .of_next ((exec_ldVxK_waits x hkeys).symm.trans h) ⟨rfl, rfl⟩
  · exact .of_next ((exec_ldVxK_takes x hkeys).symm.trans h) ⟨rfl, rfl⟩

theorem timersKept_of_execLdF {x : Reg} {s t : State} (h : execLdF x s = .next t) : TimersKept s t := by
  unfold execLdF at h
  split at h
  · exact .of_next h ⟨rfl, rfl⟩
  · exact .of_next h ⟨rfl, rfl⟩

theorem timersKept_of_execLdB {x : Reg} {s t : State} (h : execLdB x s = .next t) : TimersKept s t := by
  unfold execLdB at h
  split at h
  · exact timersKept_of_storeBytes h
  · exact .of_next h ⟨rfl, rfl⟩

/-! ### Every instruction -/

/-- What an instruction can do to the timers: `Fx15` and `Fx18` each load one and do nothing else (R137, R138), and
every other instruction keeps both. -/
theorem exec_timers {i : Instr} {s t : State} (h : exec i s = .next t) :
    (∃ x, i = .ldDtVx x ∧ t = { s with dt := s.reg x }) ∨
    (∃ x, i = .ldStVx x ∧ t = { s with st := s.reg x }) ∨
    TimersKept s t := by
  cases i with
  | ldDtVx x => exact .inl ⟨x, rfl, (next_inj.mp h).symm⟩
  | ldStVx x => exact .inr (.inl ⟨x, rfl, (next_inj.mp h).symm⟩)
  | cls | sys | jp | jpV0 | ldByte | addByte | ldReg | orReg | andReg | xorReg | addReg | sub | shr | subn | shl | rnd
  | ldI | ldVxDt => exact .inr (.inr (.of_next h ⟨rfl, rfl⟩))
  | seByte | sneByte | seReg | sneReg => exact .inr (.inr (.of_next h (timersKept_skipIf s _)))
  | skp | sknp => exact .inr (.inr (.of_next h (timersKept_warnKeyIndex_skipIf _ _ s _)))
  | addI => exact .inr (.inr (.of_next h (timersKept_indexOverflowFlag_setI _ s _)))
  | ret => exact .inr (.inr (timersKept_of_execRet h))
  | call => exact .inr (.inr (timersKept_of_execCall h))
  | drw => exact .inr (.inr (timersKept_of_execDrw h))
  | ldVxK => exact .inr (.inr (timersKept_of_exec_ldVxK h))
  | ldF => exact .inr (.inr (timersKept_of_execLdF h))
  | ldB => exact .inr (.inr (timersKept_of_execLdB h))
  | stRegs => exact .inr (.inr (timersKept_of_transferByPolicy timersKept_of_storeBytes h))
  | ldRegs => exact .inr (.inr (timersKept_of_transferByPolicy timersKept_of_loadRegs h))

/-- Settles O47: a tick is a truncated decrement of each timer, and an instruction that moves a timer is, of the three
kinds `exec_timers` tells apart, the one that loads it. -/
theorem timersMoveOnlyByTicksAndLoads : Obligations.TimersMoveOnlyByTicksAndLoads := by
  refine ⟨fun s => ?ticks, fun i s t h => ?loads⟩
  case ticks =>
    exact ⟨tickTimers s, rfl, toNat_tickTimer s.dt, toNat_tickTimer s.st, sameOutside_tickTimers s⟩
  case loads =>
    obtain ⟨x, rfl, rfl⟩ | ⟨x, rfl, rfl⟩ | hkept := exec_timers h
    · exact ⟨fun _ => ⟨x, rfl, rfl⟩, fun hst => absurd rfl hst⟩
    · exact ⟨fun hdt => absurd rfl hdt, fun _ => ⟨x, rfl, rfl⟩⟩
    · exact ⟨fun hdt => absurd hkept.dt hdt, fun hst => absurd hkept.st hst⟩

end Sys2Proof.Proofs
end

section
/-! The encoder and the decoder as inverses (30_encoding.md R60 to R66): a word is the pattern of its own fields, the
decoder reads every pattern back, and a word is read by one of the rows of R64 or is one of the unknown words of R65. -/

namespace Sys2Proof.Proofs

open Sys2Proof Sys2Proof.Machine Sys2Proof.Safety Sys2Proof.Laws

/-! ### From an instruction to its word and back -/

theorem toNat_fieldAddr_wordAddr_ne {addr : Addr} {k : Nat} (h : addr ≠ BitVec.ofNat 12 k) (hk : k < 4096) :
    (fieldAddr (wordAddr 0x0 addr)).toNat ≠ k := by
  rw [fieldAddr_wordAddr]
  intro haddr
  exact h (BitVec.eq_of_toNat_eq (by simp [haddr]; omega))

theorem decodeWord_encode_sys (m : Decode59) {addr : Addr} (hwf : (Instr.sys addr).wellFormed = true) :
    decodeWord m (encode (.sys addr)) = .ok (.sys addr) := by
  simp only [Instr.wellFormed, Bool.and_eq_true, bne_iff_ne] at hwf
  obtain ⟨hcls, hret⟩ := hwf
  have hclass0 : decodeClass0 (wordAddr 0x0 addr) = .sys addr := by
    rw [decodeClass0_eq_sys (toNat_fieldAddr_wordAddr_ne hcls (by decide))
      (toNat_fieldAddr_wordAddr_ne hret (by decide)), fieldAddr_wordAddr]
  simpa [decodeWord, encode] using hclass0

theorem decodeWord_encode (m : Decode59) {i : Instr} (hwf : i.wellFormed = true) :
    decodeWord m (encode i) = .ok i := by
  cases i with
  | cls | ret => rfl
  | sys => exact decodeWord_encode_sys m hwf
  | jp | call | seByte | sneByte | ldByte | addByte | ldI | jpV0 | rnd | drw => simp [decodeWord, encode]
  | seReg | sneReg => cases m <;> simp [decodeWord, encode, decodeClass59]
  | ldReg | orReg | andReg | xorReg | addReg | sub | shr | subn | shl => simp [decodeWord, encode, decodeClass8]
  | skp | sknp => simp [decodeWord, encode, decodeClassE]
  | ldVxDt | ldVxK | ldDtVx | ldStVx | addI | ldF | ldB | stRegs | ldRegs =>
    simp [decodeWord, encode, decodeClassF]

/-- Decoding two bytes is decoding the word they make, whatever follows (R60). -/
theorem decode_highByte_lowByte (m : Decode59) (op : Word) (rest : List Byte) :
    decode m (highByte op :: lowByte op :: rest) = (decodeWord m op).map (fun i => (i, rest)) := by
  rw [decode, wordOfBytes_high_low]

/-- Settles O1: each field of a pattern reads back what the encoder put there, so the class and the secondary key select
the instruction's own row. -/
theorem decodeOfEncodeIsTheInstruction : Obligations.DecodeOfEncodeIsTheInstruction := by
  intro m i rest hwf
  refine ⟨decodeWord_encode m hwf, ?bytes⟩
  case bytes =>
    calc decode m (encodeBytes i ++ rest)
      _ = (decodeWord m (encode i)).map (fun j => (j, rest)) := decode_highByte_lowByte m (encode i) rest
      _ = .ok (i, rest) := by rw [decodeWord_encode m hwf, Except.map]

/-- Settles O6: each word of the listings is the encoding of the instruction beside it. -/
theorem programListingWordsDecode : Obligations.ProgramListingWordsDecode := fun m =>
  ⟨decodeWord_encode m (i := .addReg 0 1) rfl, decodeWord_encode m (i := .addByte 1 0xFF#8) rfl,
    decodeWord_encode m (i := .jp 0x204#12) rfl, decodeWord_encode m (i := .ldB 10) rfl,
    decodeWord_encode m (i := .ldRegs 2) rfl, decodeWord_encode m (i := .drw 1 2 5#4) rfl,
    decodeWord_encode m (i := .ldVxK 0) rfl, decodeWord_encode m (i := .ret) rfl⟩

/-! ### A word as the pattern of its fields -/

theorem wordAddr_fields (op : Word) : wordAddr (opClass op) (fieldAddr op) = op := by
  apply BitVec.eq_of_toNat_eq
  rw [toNat_wordAddr, toNat_opClass, toNat_fieldAddr]
  omega

theorem wordXKK_fields (op : Word) : wordXKK (opClass op) (fieldX op) (fieldNN op) = op := by
  apply BitVec.eq_of_toNat_eq
  rw [toNat_wordXKK, toNat_opClass, val_fieldX, toNat_fieldNN]
  omega

theorem wordXYN_fields (op : Word) : wordXYN (opClass op) (fieldX op) (fieldY op) (fieldN op) = op := by
  apply BitVec.eq_of_toNat_eq
  rw [toNat_wordXYN, toNat_opClass, val_fieldX, val_fieldY, toNat_fieldN]
  omega

/-- A word whose class is known is the pattern `cnnn` of its address. -/
theorem wordAddr_of_class {op : Word} {c : Nibble} (hclass : (opClass op).toNat = c.toNat) :
    wordAddr c (fieldAddr op) = op :=
  BitVec.eq_of_toNat_eq hclass ▸ wordAddr_fields op

/-- A word whose class is known is the pattern `cxkk` of its other fields. -/
theorem wordXKK_of_class {op : Word} {c : Nibble} (hclass : (opClass op).toNat = c.toNat) :
    wordXKK c (fieldX op) (fieldNN op) = op :=
  BitVec.eq_of_toNat_eq hclass ▸ wordXKK_fields op

/-- A word whose class is known is the pattern `cxyn` of its other fields. -/
theorem wordXYN_of_class {op : Word} {c : Nibble} (hclass : (opClass op).toNat = c.toNat) :
    wordXYN c (fieldX op) (fieldY op) (fieldN op) = op :=
  BitVec.eq_of_toNat_eq hclass ▸ wordXYN_fields op

/-- A word whose class and low byte are known is the pattern `cxkk` of its register field. -/
theorem wordXKK_of_keys {op : Word} {c : Nibble} {kk : Byte} (hclass : (opClass op).toNat = c.toNat)
    (hkk : (fieldNN op).toNat = kk.toNat) : wordXKK c (fieldX op) kk = op :=
  BitVec.eq_of_toNat_eq hkk ▸ wordXKK_of_class hclass

/-- A word whose class and low nibble are known is the pattern `cxyn` of its two register fields. -/
theorem wordXYN_of_keys {op : Word} {c n : Nibble} (hclass : (opClass op).toNat = c.toNat)
    (hn : (fieldN op).toNat = n.toNat) : wordXYN c (fieldX op) (fieldY op) n = op :=
  BitVec.eq_of_toNat_eq hn ▸ wordXYN_of_class hclass

/-! ### From a word to its instruction and back -/

/-- The word is that of the instruction, which is one of the machine. -/
def IsWordOf (op : Word) (i : Instr) : Prop := i.wellFormed = true ∧ encode i = op

theorem isWordOf_of_decodeClass0 {op : Word} (hclass : (opClass op).toNat = 0) : IsWordOf op (decodeClass0 op) := by
  have hword : wordAddr 0x0 (fieldAddr op) = op := wordAddr_of_class hclass
  unfold decodeClass0
  split
  case h_1 hcls =>
    have haddr : fieldAddr op = 0x0E0#12 := BitVec.eq_of_toNat_eq hcls
    exact ⟨rfl, by rw [← hword, haddr]; rfl⟩
  case h_2 hret =>
    have haddr : fieldAddr op = 0x0EE#12 := BitVec.eq_of_toNat_eq hret
    exact ⟨rfl, by rw [← hword, haddr]; rfl⟩
  case h_3 hcls hret =>
    refine ⟨?_, hword⟩
    simp only [Instr.wellFormed, Bool.and_eq_true, bne_iff_ne]
    exact ⟨fun h => hcls (congrArg BitVec.toNat h), fun h => hret (congrArg BitVec.toNat h)⟩

theorem isWordOf_of_decodeClass8 {op : Word} {i : Instr} (hclass : (opClass op).toNat = 8)
    (h : decodeClass8 op = .ok i) : IsWordOf op i := by
  unfold decodeClass8 at h
  split at h
  case h_10 => cases h
  all_goals cases h; exact ⟨rfl, wordXYN_of_keys hclass ‹_›⟩

theorem isWordOf_of_decodeClassE {op : Word} {i : Instr} (hclass : (opClass op).toNat = 14)
    (h : decodeClassE op = .ok i) : IsWordOf op i := by
  unfold decodeClassE at h
  split at h
  case h_3 => cases h
  all_goals cases h; exact ⟨rfl, wordXKK_of_keys hclass ‹_›⟩

theorem isWordOf_of_decodeClassF {op : Word} {i : Instr} (hclass : (opClass op).toNat = 15)
    (h : decodeClassF op = .ok i) : IsWordOf op i := by
  unfold decodeClassF at h
  split at h
  case h_10 => cases h
  all_goals cases h; exact ⟨rfl, wordXKK_of_keys hclass ‹_›⟩

/-- Under `UNKNOWN` the low nibble of classes 5 and 9 has to be 0; under `IGNORE` any will do (R63, C8). -/
theorem lowNibble_of_decodeClass59 {m : Decode59} {i j : Instr} {op : Word} (h : decodeClass59 m i op = .ok j) :
    m = .ignore ∨ fieldN op = 0 := by
  cases m with
  | ignore => exact .inl rfl
  | unknown =>
    by_contra hn
    cases (if_neg (not_or.mp hn).2).symm.trans h

/-- The skips of classes 5 and 9 that `IGNORE` reads from a word whatever its low nibble (R63, C8). -/
def LowNibbleIgnored (m : Decode59) (op : Word) (i : Instr) : Prop :=
  m = .ignore ∧ (i = .seReg (fieldX op) (fieldY op) ∧ op.toNat / 4096 = 5 ∨
    i = .sneReg (fieldX op) (fieldY op) ∧ op.toNat / 4096 = 9)

/-- What the decoder reads from a word: the instruction whose word it is, or a skip whose low nibble is ignored. -/
theorem isWordOf_of_decodeWord {m : Decode59} {op : Word} {i : Instr} (h : decodeWord m op = .ok i) :
    IsWordOf op i ∨ LowNibbleIgnored m op i := by
  unfold decodeWord at h
  split at h
  case h_1 hclass => cases h; exact .inl (isWordOf_of_decodeClass0 hclass)
  case h_6 hclass =>
    cases eq_of_decodeClass59_eq_ok h
    obtain hm | hn := lowNibble_of_decodeClass59 h
    · exact .inr ⟨hm, .inl ⟨rfl, (toNat_opClass op).symm.trans hclass⟩⟩
    · exact .inl ⟨rfl, wordXYN_of_keys hclass (congrArg BitVec.toNat hn)⟩
  case h_9 hclass => exact .inl (isWordOf_of_decodeClass8 hclass h)
  case h_10 hclass =>
    cases eq_of_decodeClass59_eq_ok h
    obtain hm | hn := lowNibble_of_decodeClass59 h
    · exact .inr ⟨hm, .inr ⟨rfl, (toNat_opClass op).symm.trans hclass⟩⟩
    · exact .inl ⟨rfl, wordXYN_of_keys hclass (congrArg BitVec.toNat hn)⟩
  case h_14 hclass => cases h; exact .inl ⟨rfl, wordXYN_of_class hclass⟩
  case h_15 hclass => exact .inl (isWordOf_of_decodeClassE hclass h)
  case h_16 =>
    have hclass : (opClass op).toNat = 15 := by
      have hlt := (opClass op).isLt
      simp only [imp_false] at *
      omega
    exact .inl (isWordOf_of_decodeClassF hclass h)
  case h_2 hclass | h_3 hclass | h_11 hclass | h_12 hclass =>
    cases h; exact .inl ⟨rfl, wordAddr_of_class hclass⟩
  case h_4 hclass | h_5 hclass | h_7 hclass | h_8 hclass | h_13 hclass =>
    cases h; exact .inl ⟨rfl, wordXKK_of_class hclass⟩

/-- The encoding of a skip whose low nibble is ignored is the word with that nibble 0. -/
theorem toNat_encode_of_lowNibbleIgnored {m : Decode59} {op : Word} {i : Instr} (h : LowNibbleIgnored m op i) :
    (encode i).toNat = op.toNat / 16 * 16 := by
  obtain ⟨-, ⟨rfl, hclass⟩ | ⟨rfl, hclass⟩⟩ := h
  all_goals
    rw [encode, toNat_wordXYN, val_fieldX, val_fieldY]
    simp only [BitVec.ofNat_eq_ofNat, BitVec.toNat_ofNat]
    omega

/-- Settles O2: in every class the word is the pattern of the fields that the decoder read from it, but for the low
nibble that `IGNORE` does not look at. -/
theorem encodeOfDecodeIsTheWord : Obligations.EncodeOfDecodeIsTheWord := by
  intro m op i h
  obtain ⟨hwf, hword⟩ | hignored := isWordOf_of_decodeWord h
  · exact ⟨hwf, .inl hword⟩
  · have hnibble := toNat_encode_of_lowNibbleIgnored hignored
    obtain ⟨hm, ⟨rfl, hclass⟩ | ⟨rfl, hclass⟩⟩ := hignored
    · exact ⟨rfl, .inr ⟨hm, .inl hclass, hnibble⟩⟩
    · exact ⟨rfl, .inr ⟨hm, .inr hclass, hnibble⟩⟩

end Sys2Proof.Proofs
end

section
/-! The rows of the opcode map (30_encoding.md R64) and the words that match none of them (R65). -/

namespace Sys2Proof.Proofs

open Sys2Proof Sys2Proof.Machine Sys2Proof.Safety Sys2Proof.Laws

/-! ### The masks of the rows -/

theorem toNat_opClass_of_mask {op : Word} {c : Nibble} (h : op &&& 0xF000#16 = wordAddr c 0#12) :
    (opClass op).toNat = c.toNat := by
  have hnat := congrArg BitVec.toNat h
  rw [toNat_and_F000, toNat_wordAddr] at hnat
  rw [toNat_opClass]
  simp only [BitVec.toNat_ofNat] at hnat
  omega

theorem wordXYN_of_mask {op : Word} {c n : Nibble} (h : op &&& 0xF00F#16 = wordXYN c 0 0 n) :
    wordXYN c (fieldX op) (fieldY op) n = op := by
  have hnat := congrArg BitVec.toNat h
  rw [toNat_and_F00F, toNat_wordXYN] at hnat
  simp only [Fin.val_zero] at hnat
  exact wordXYN_of_keys (by rw [toNat_opClass]; omega) (by rw [toNat_fieldN]; omega)

theorem wordXKK_of_mask {op : Word} {c : Nibble} {kk : Byte} (h : op &&& 0xF0FF#16 = wordXKK c 0 kk) :
    wordXKK c (fieldX op) kk = op := by
  have hnat := congrArg BitVec.toNat h
  rw [toNat_and_F0FF, toNat_wordXKK] at hnat
  simp only [Fin.val_zero] at hnat
  exact wordXKK_of_keys (by rw [toNat_opClass]; omega) (by rw [toNat_fieldNN]; omega)

/-! ### The rows -/

theorem decodeWord_of_isWordOf (m : Decode59) {op : Word} {i : Instr} (h : IsWordOf op i) :
    decodeWord m op = .ok i := by
  obtain ⟨hwf, rfl⟩ := h
  exact decodeWord_encode m hwf

theorem decodeWord_ignore_class5 {op : Word} (hclass : (opClass op).toNat = 5) :
    decodeWord .ignore op = .ok (.seReg (fieldX op) (fieldY op)) := by
  simp [decodeWord, hclass, decodeClass59]

theorem decodeWord_ignore_class9 {op : Word} (hclass : (opClass op).toNat = 9) :
    decodeWord .ignore op = .ok (.sneReg (fieldX op) (fieldY op)) := by
  simp [decodeWord, hclass, decodeClass59]

/-- A row `cnnn` with no secondary key. -/
theorem decodeWord_row_cnnn (m : Decode59) {op : Word} {i : Instr} {c : Nibble} (hwf : i.wellFormed = true)
    (hi : encode i = wordAddr c (fieldAddr op)) (h : op &&& 0xF000#16 = wordAddr c 0#12) : decodeWord m op = .ok i :=
  decodeWord_of_isWordOf m ⟨hwf, hi.trans (wordAddr_of_class (toNat_opClass_of_mask h))⟩

/-- A row `cxkk` with no secondary key. -/
theorem decodeWord_row_cxkk (m : Decode59) {op : Word} {i : Instr} {c : Nibble} (hwf : i.wellFormed = true)
    (hi : encode i = wordXKK c (fieldX op) (fieldNN op)) (h : op &&& 0xF000#16 = wordAddr c 0#12) :
    decodeWord m op = .ok i :=
  decodeWord_of_isWordOf m ⟨hwf, hi.trans (wordXKK_of_class (toNat_opClass_of_mask h))⟩

/-- A row `cxyn` with no secondary key. -/
theorem decodeWord_row_cxyn (m : Decode59) {op : Word} {i : Instr} {c : Nibble} (hwf : i.wellFormed = true)
    (hi : encode i = wordXYN c (fieldX op) (fieldY op) (fieldN op)) (h : op &&& 0xF000#16 = wordAddr c 0#12) :
    decodeWord m op = .ok i :=
  decodeWord_of_isWordOf m ⟨hwf, hi.trans (wordXYN_of_class (toNat_opClass_of_mask h))⟩

/-- A row keyed on the low nibble. -/
theorem decodeWord_row_keyedN (m : Decode59) {op : Word} {i : Instr} {c n : Nibble} (hwf : i.wellFormed = true)
    (hi : encode i = wordXYN c (fieldX op) (fieldY op) n) (h : op &&& 0xF00F#16 = wordXYN c 0 0 n) :
    decodeWord m op = .ok i :=
  decodeWord_of_isWordOf m ⟨hwf, hi.trans (wordXYN_of_mask h)⟩

/-- A row keyed on the low byte. -/
theorem decodeWord_row_keyedNN (m : Decode59) {op : Word} {i : Instr} {c : Nibble} {kk : Byte}
    (hwf : i.wellFormed = true) (hi : encode i = wordXKK c (fieldX op) kk)
    (h : op &&& 0xF0FF#16 = wordXKK c 0 kk) : decodeWord m op = .ok i :=
  decodeWord_of_isWordOf m ⟨hwf, hi.trans (wordXKK_of_mask h)⟩

/-- Settles O4: a word that matches a row is the pattern of that row over its own fields, so the round trip of the
encoder reads it; left are class 0, and the skips whose low nibble `IGNORE` does not look at. -/
theorem decoderFollowsTheOpcodeMap : Obligations.DecoderFollowsTheOpcodeMap := by
  intro m op x y n kk addr hx hy hn hkk haddr
  obtain rfl : fieldX op = x := Fin.ext ((val_fieldX op).trans hx.symm)
  obtain rfl : fieldY op = y := Fin.ext ((val_fieldY op).trans hy.symm)
  obtain rfl : fieldN op = n := BitVec.eq_of_toNat_eq ((toNat_fieldN op).trans hn.symm)
  obtain rfl : fieldNN op = kk := BitVec.eq_of_toNat_eq ((toNat_fieldNN op).trans hkk.symm)
  obtain rfl : fieldAddr op = addr := BitVec.eq_of_toNat_eq ((toNat_fieldAddr op).trans haddr.symm)
  exact ⟨
    -- class 0
    fun h => decodeWord_of_isWordOf m (i := .cls) ⟨rfl, h.symm⟩,
    fun h => decodeWord_of_isWordOf m (i := .ret) ⟨rfl, h.symm⟩,
    fun h => decodeWord_eq_sys m ((toNat_opClass op).symm.trans (toNat_opClass_of_mask (c := 0x0) h)),
    -- classes 1 to 4
    (decodeWord_row_cnnn m rfl rfl ·), (decodeWord_row_cnnn m rfl rfl ·),
    (decodeWord_row_cxkk m rfl rfl ·), (decodeWord_row_cxkk m rfl rfl ·),
    -- class 5
    fun h hm => hm ▸ decodeWord_ignore_class5 (toNat_opClass_of_mask (c := 0x5) h),
    (decodeWord_row_keyedN m rfl rfl ·),
    -- classes 6 and 7
    (decodeWord_row_cxkk m rfl rfl ·), (decodeWord_row_cxkk m rfl rfl ·),
    -- class 8
    (decodeWord_row_keyedN m rfl rfl ·), (decodeWord_row_keyedN m rfl rfl ·), (decodeWord_row_keyedN m rfl rfl ·),
    (decodeWord_row_keyedN m rfl rfl ·), (decodeWord_row_keyedN m rfl rfl ·), (decodeWord_row_keyedN m rfl rfl ·),
    (decodeWord_row_keyedN m rfl rfl ·), (decodeWord_row_keyedN m rfl rfl ·), (decodeWord_row_keyedN m rfl rfl ·),
    -- class 9
    fun h hm => hm ▸ decodeWord_ignore_class9 (toNat_opClass_of_mask (c := 0x9) h),
    (decodeWord_row_keyedN m rfl rfl ·),
    -- classes A to D
    (decodeWord_row_cnnn m rfl rfl ·), (decodeWord_row_cnnn m rfl rfl ·),
    (decodeWord_row_cxkk m rfl rfl ·), (decodeWord_row_cxyn m rfl rfl ·),
    -- class E
    (decodeWord_row_keyedNN m rfl rfl ·), (decodeWord_row_keyedNN m rfl rfl ·),
    -- class F
    (decodeWord_row_keyedNN m rfl rfl ·), (decodeWord_row_keyedNN m rfl rfl ·), (decodeWord_row_keyedNN m rfl rfl ·),
    (decodeWord_row_keyedNN m rfl rfl ·), (decodeWord_row_keyedNN m rfl rfl ·), (decodeWord_row_keyedNN m rfl rfl ·),
    (decodeWord_row_keyedNN m rfl rfl ·), (decodeWord_row_keyedNN m rfl rfl ·), (decodeWord_row_keyedNN m rfl rfl ·)⟩

/-! ### The unknown words -/

/-- A decoder's answer on a word, told apart by a condition: it is unknown if that holds, and read as some instruction
if not. -/
def UnknownIff (p : Prop) (op : Word) (r : Except DecodeError Instr) : Prop :=
  (p ∧ r = .error (.unknownInstruction op)) ∨ (¬ p ∧ ∃ i, r = .ok i)

theorem UnknownIff.ok {p : Prop} {op : Word} {i : Instr} (h : ¬ p) : UnknownIff p op (.ok i) :=
  .inr ⟨h, i, rfl⟩

theorem UnknownIff.congr {p q : Prop} {op : Word} {r : Except DecodeError Instr} (h : UnknownIff p op r)
    (hpq : p ↔ q) : UnknownIff q op r :=
  hpq.eq ▸ h

theorem unknownIff_decodeClass8 (op : Word) :
    UnknownIff (op.toNat % 16 ∈ [0x8, 0x9, 0xA, 0xB, 0xC, 0xD, 0xF]) op (decodeClass8 op) := by
  rw [← toNat_fieldN]
  unfold decodeClass8
  split
  case h_10 =>
    have hlt := (fieldN op).isLt
    refine .inl ⟨?_, rfl⟩
    simp only [imp_false, List.mem_cons, List.not_mem_nil] at *
    omega
  all_goals next h => exact .ok (by simp [h])

theorem unknownIff_decodeClassE (op : Word) :
    UnknownIff (op.toNat % 256 ∉ [0x9E, 0xA1]) op (decodeClassE op) := by
  rw [← toNat_fieldNN]
  unfold decodeClassE
  split
  case h_3 hskp hsknp => exact .inl ⟨by simp [imp_false.mp hskp, imp_false.mp hsknp], rfl⟩
  all_goals next h => exact .ok (by simp [h])

theorem unknownIff_decodeClassF (op : Word) :
    UnknownIff (op.toNat % 256 ∉ [0x07, 0x0A, 0x15, 0x18, 0x1E, 0x29, 0x33, 0x55, 0x65]) op (decodeClassF op) := by
  rw [← toNat_fieldNN]
  unfold decodeClassF
  split
  case h_10 => exact .inl ⟨by simp_all, rfl⟩
  all_goals next h => exact .ok (by simp [h])

theorem unknownIff_decodeClass59 (m : Decode59) (i : Instr) (op : Word) :
    UnknownIff (m = .unknown ∧ op.toNat % 16 ≠ 0) op (decodeClass59 m i op) := by
  have hzero : fieldN op = 0 ↔ op.toNat % 16 = 0 := by
    rw [← toNat_fieldN]
    exact BitVec.toNat_eq
  cases m with
  | ignore => exact .ok (by simp)
  | unknown =>
    by_cases hn : fieldN op = 0
    · exact .inr ⟨fun h => h.2 (hzero.mp hn), i, if_pos hn⟩
    · exact .inl ⟨⟨rfl, mt hzero.mpr hn⟩, if_neg hn⟩

theorem unknownIff_decodeWord (m : Decode59) (op : Word) : UnknownIff (UnknownWord m op) op (decodeWord m op) := by
  unfold UnknownWord
  rw [← toNat_opClass]
  unfold decodeWord
  split
  case h_6 h => exact (unknownIff_decodeClass59 m _ op).congr (by simp [h])
  case h_9 h => exact (unknownIff_decodeClass8 op).congr (by simp [h])
  case h_10 h => exact (unknownIff_decodeClass59 m _ op).congr (by simp [h])
  case h_15 h => exact (unknownIff_decodeClassE op).congr (by simp [h])
  case h_16 =>
    have h : (opClass op).toNat = 15 := by
      have hlt := (opClass op).isLt
      simp only [imp_false] at *
      omega
    exact (unknownIff_decodeClassF op).congr (by simp [h])
  all_goals next h => exact .ok (by simp [h])

theorem decodeWord_eq_error_iff (m : Decode59) (op : Word) :
    decodeWord m op = .error (.unknownInstruction op) ↔ UnknownWord m op := by
  obtain ⟨hp, hr⟩ | ⟨hp, i, hr⟩ := unknownIff_decodeWord m op
  · exact iff_of_true hr hp
  · exact iff_of_false (by simp [hr]) hp

theorem exists_decodeWord_eq_ok_iff (m : Decode59) (op : Word) :
    (∃ i, decodeWord m op = .ok i) ↔ ¬ UnknownWord m op := by
  obtain ⟨hp, hr⟩ | ⟨hp, i, hr⟩ := unknownIff_decodeWord m op
  · exact iff_of_false (by simp [hr]) (not_not_intro hp)
  · exact iff_of_true ⟨i, hr⟩ hp

/-- The word a step fetches, as the number its two bytes make (R60). -/
theorem toNat_wordAt (m : Memory) (a : Nat) :
    (wordAt m a).toNat = (byteAt m a).toNat * 256 + (byteAt m (a + 1)).toNat :=
  toNat_wordOfBytes _ _

/-- The post-fetch `PC` less 2 is the address the word was fetched from (R69). -/
theorem pcInst_postFetch (s : State) : (postFetch s).pcInst = s.pc :=
  add_sub_cancel_right s.pc 2

/-- Settles O3: class by class the decoder has no row exactly for the words of the table; a step on one is the
sequencer's own report on the post-fetch state. -/
theorem unknownWordsOnlyAdvancePc : Obligations.UnknownWordsOnlyAdvancePc := by
  refine ⟨fun m op => ⟨decodeWord_eq_error_iff m op, exists_decodeWord_eq_ok_iff m op⟩, ?step⟩
  case step =>
    intro s op hlow hhigh hop hunknown
    obtain rfl : wordAt s.mem s.pc.toNat = op :=
      BitVec.eq_of_toNat_eq ((toNat_wordAt s.mem s.pc.toNat).trans hop.symm)
    rw [step_unknown ⟨hlow, hhigh⟩ ((decodeWord_eq_error_iff _ _).mpr hunknown), reportUnknown, pcInst_postFetch]
    rfl

end Sys2Proof.Proofs
end

section
/-! What an instruction can do, said once: every next state that `exec` answers is one of a few kinds of change
(41_alu.md to 44_timers_input_memory.md). The invariants and the writers of each part are read off it. -/

namespace Sys2Proof.Proofs

open Sys2Proof Sys2Proof.Machine Sys2Proof.Safety Sys2Proof.Laws

/-! ### The kinds of change -/

/-- The one kind of diagnostic an instruction can report, if it can report any (R151). -/
def reportKind : Instr → Option DiagKind
  | .ret => some .stackUnderflow
  | .sys _ => some .legacyMachineCall
  | .call _ => some .stackOverflow
  | .drw _ _ _ => some .spriteOutOfBounds
  | .skp _ | .sknp _ => some .invalidKeyIndex
  | .ldF _ => some .invalidDigitIndex
  | .ldB _ => some .bcdOutOfBounds
  | .stRegs _ | .ldRegs _ => some .registerTransferOutOfBounds
  | _ => none

/-- The destination of an instruction that writes one register and nothing else. -/
def plainDest : Instr → Option Reg
  | .ldByte x _ | .addByte x _ | .ldReg x _ | .orReg x _ | .andReg x _ | .xorReg x _ | .ldVxDt x | .ldVxK x => some x
  | _ => none

/-- The ways an instruction changes the state, each with what its range checks and its operands leave known. -/
inductive Effect (s : State) : Instr → State → Prop
  | report {i : Instr} {k : DiagKind} (hk : reportKind i = some k) : Effect s i (warn k i s)
  | writeReg {i : Instr} {x : Reg} (b : Byte) (hi : plainDest i = some x) : Effect s i (s.setReg x b)
  | flagged {i : Instr} {x y : Reg} (rd : State → Byte × Byte) (f g : Byte → Byte → Byte)
      (hi : i ∈ [Instr.addReg x y, .sub x y, .subn x y, .shr x y, .shl x y]) : Effect s i (aluFlagged x rd f g s)
  | random (x : Reg) (kk b : Byte) : Effect s (.rnd x kk) { s.setReg x b with draws := s.draws + 1 }
  | clear : Effect s .cls { s with fb := clearFramebuffer }.notifyDisplay
  | draw {x y : Reg} {n : Nibble} (k : Canvas) (hin : s.i.toNat + n.toNat ≤ memorySize) :
      Effect s (.drw x y n) ({ s with fb := k.fb }.setReg VF (collisionFlag k.collision)).notifyDisplay
  | jump {i : Instr} {a : Word} (ha : a.toNat ≤ 0x10FE) : Effect s i (s.setPc a)
  | skip {i : Instr} (c : Bool) : Effect s i (s.skipIf c)
  | keySkip {i : Instr} (x : Reg) (c : Bool) (hk : reportKind i = some .invalidKeyIndex) :
      Effect s i ((warnKeyIndex x i s).skipIf c)
  | wait (x : Reg) (hkeys : s.keys = 0#16) : Effect s (.ldVxK x) (s.setPc (s.pc - 2)).notifyAwaitingKey
  | pop {a : Word} (ha : s.stack[s.sp - 1]? = some a) : Effect s .ret { s with sp := s.sp - 1, pc := a }
  | push (addr : Addr) (hroom : s.sp < s.stack.length) : Effect s (.call addr)
      (State.setPc { s with stack := s.stack.set s.sp s.pc, sp := s.sp + 1 } (addr.setWidth 16))
  | overflow (addr : Addr) : Effect s (.call addr) ((warn .stackOverflow (.call addr) s).setPc (addr.setWidth 16))
  | setI {i : Instr} {a : Word} (ha : a.toNat ≤ 0xFFF) (hi : (∃ addr, i = .ldI addr) ∨ ∃ x, i = .ldF x) :
      Effect s i (s.setI a)
  | addI {a : Word} (x : Reg) (c : Bool) (ha : a.toNat ≤ 0xFFF) : Effect s (.addI x) (indexOverflowFlag c (s.setI a))
  | setDt (x : Reg) : Effect s (.ldDtVx x) { s with dt := s.reg x }
  | setSt (x : Reg) : Effect s (.ldStVx x) { s with st := s.reg x }
  | store {i : Instr} {bs : List Byte} (hlow : programBase ≤ s.i.toNat) (hin : s.i.toNat + bs.length ≤ memorySize)
      (hi : ∃ x, i = .ldB x ∨ i = .stRegs x) : Effect s i { s with mem := writeBytes s.mem s.i.toNat bs }
  | storeWarned {bs : List Byte} (x : Reg) (hpolicy : s.params.transfer = .warn)
      (hin : s.i.toNat + bs.length ≤ memorySize) : Effect s (.stRegs x)
      { warn .registerTransferOutOfBounds (.stRegs x) s with mem := writeBytes s.mem s.i.toNat bs }
  | loadRegs {bs : List Byte} (x : Reg) (hlength : bs.length = x.val + 1) : Effect s (.ldRegs x)
      { s with v := loadedRegs s.v bs }

/-- A move to a next state that is known to be such a change. -/
theorem Effect.of_next {s u t : State} {i : Instr} (h : (.next u : Result) = .next t) (hu : Effect s i u) :
    Effect s i t :=
  next_inj.mp h ▸ hu

/-! ### The values an instruction moves -/

theorem toNat_jumpTarget_le (addr : Addr) : (addr.setWidth 16).toNat ≤ 0xFFF := by
  rw [toNat_jumpTarget]
  omega

/-- The sum of `Bnnn` fits into `PC` (R110). -/
theorem toNat_jumpOffsetTarget (addr : Addr) (s : State) :
    (jumpOffsetTarget addr s).toNat = addr.toNat + (s.reg (jumpOffsetRegister addr s)).toNat := by
  rw [jumpOffsetTarget, BitVec.toNat_add, toNat_jumpTarget, BitVec.toNat_setWidth_of_le (by decide)]
  omega

theorem toNat_jumpOffsetTarget_le (addr : Addr) (s : State) : (jumpOffsetTarget addr s).toNat ≤ 0x10FE := by
  rw [toNat_jumpOffsetTarget]
  omega

/-- The address of a glyph fits into `I` (R140). -/
theorem toNat_glyphAddress (b : Byte) : (glyphAddress b).toNat = 0x100 + 5 * b.toNat := by
  rw [glyphAddress, BitVec.toNat_ofNat, fontBase]
  omega

/-- The index that `Fx1E` writes: the sum, taken back into 12 bits when it leaves them (R139). -/
def maskedIndex (sum : Nat) : Nat := if sum > 0xFFF then sum % 0x1000 else sum

theorem maskedIndex_le (sum : Nat) : maskedIndex sum ≤ 0xFFF := by
  unfold maskedIndex
  split <;> omega

theorem toNat_maskedIndex (sum : Nat) : (BitVec.ofNat 16 (maskedIndex sum)).toNat = maskedIndex sum := by
  have := maskedIndex_le sum
  rw [BitVec.toNat_ofNat]
  omega

theorem toNat_maskedIndex_le (sum : Nat) : (BitVec.ofNat 16 (maskedIndex sum)).toNat ≤ 0xFFF :=
  (toNat_maskedIndex sum).trans_le (maskedIndex_le sum)

theorem exec_addI (x : Reg) (s : State) : exec (.addI x) s = .next
    (indexOverflowFlag (decide (indexSum x s > 0xFFF)) (s.setI (BitVec.ofNat 16 (maskedIndex (indexSum x s))))) := by
  simp [exec, execAddI, maskedIndex]

/-! ### The instructions that branch -/

theorem effect_of_execRet {s t : State} (h : execRet s = .next t) : Effect s .ret t := by
  unfold execRet at h
  split at h
  · exact .of_next h (.report rfl)
  · obtain ⟨a, ha, rfl⟩ := popPc_next h
    exact .pop ha

theorem effect_of_execCall {addr : Addr} {s t : State} (h : execCall addr s = .next t) : Effect s (.call addr) t := by
  unfold execCall at h
  split at h
  · exact .of_next h (.overflow addr)
  · obtain ⟨hroom, hnext⟩ := pushThen_next h
    exact .of_next hnext (.push addr hroom)

theorem effect_of_execDrw {x y : Reg} {n : Nibble} {s t : State} (h : execDrw x y n s = .next t) :
    Effect s (.drw x y n) t := by
  unfold execDrw at h
  split at h
  · obtain ⟨hin, hnext⟩ := withBytes_next h
    exact .of_next hnext (.draw _ hin)
  · exact .of_next h (.report rfl)

theorem effect_of_exec_ldVxK {x : Reg} {s t : State} (h : exec (.ldVxK x) s = .next t) : Effect s (.ldVxK x) t := by
  by_cases hkeys : s.keys = 0#16
  · exact .of_next ((exec_ldVxK_waits x hkeys).symm.trans h) (.wait x hkeys)
  · exact .of_next ((exec_ldVxK_takes x hkeys).symm.trans h) (.writeReg _ rfl)

theorem effect_of_execLdF {x : Reg} {s t : State} (h : execLdF x s = .next t) : Effect s (.ldF x) t := by
  unfold execLdF at h
  split at h
  · exact .of_next h (.report rfl)
  · next hdigit => exact .of_next h (.setI (by rw [toNat_glyphAddress]; omega) (.inr ⟨x, rfl⟩))

theorem effect_of_execLdB {x : Reg} {s t : State} (h : execLdB x s = .next t) : Effect s (.ldB x) t := by
  unfold execLdB at h
  split at h
  · next hrange =>
    obtain ⟨hin, rfl⟩ := storeBytes_next h
    exact .store hrange.1 hin ⟨x, .inl rfl⟩
  · exact .of_next h (.report rfl)

theorem effect_of_execStRegs {x : Reg} {s t : State} (h : execStRegs x s = .next t) : Effect s (.stRegs x) t := by
  obtain ⟨hrange, hrun⟩ | ⟨-, -, rfl⟩ | ⟨-, hpolicy, -, hrun⟩ := transferByPolicy_next h
  · obtain ⟨hin, rfl⟩ := storeBytes_next hrun
    exact .store (of_decide_eq_true hrange).1 hin ⟨x, .inr rfl⟩
  · exact .report rfl
  · obtain ⟨hin, rfl⟩ := storeBytes_next hrun
    exact .storeWarned x hpolicy hin

/-- Under either policy a load beyond memory does not run, so a load that runs was not reported (R131). -/
theorem effect_of_execLdRegs {x : Reg} {s t : State} (h : execLdRegs x s = .next t) : Effect s (.ldRegs x) t := by
  obtain ⟨-, hrun⟩ | ⟨-, -, rfl⟩ | ⟨hrange, -, hin, -⟩ := transferByPolicy_next h
  · exact .of_next (withBytes_next hrun).2 (.loadRegs x (length_bytesFrom _ _ _))
  · exact .report rfl
  · exact absurd hin (of_decide_eq_false hrange)

/-! ### Every instruction -/

/-- Every next state of an instruction is one of the kinds of change. -/
theorem effect_of_exec {i : Instr} {s t : State} (h : exec i s = .next t) : Effect s i t := by
  cases i with
  | cls => exact .of_next h .clear
  | ret => exact effect_of_execRet h
  | sys => exact .of_next h (.report rfl)
  | jp addr => exact .of_next h (.jump (le_trans (toNat_jumpTarget_le addr) (by decide)))
  | call => exact effect_of_execCall h
  | seByte | sneByte | seReg | sneReg => exact .of_next h (.skip _)
  | ldByte | addByte | ldReg | orReg | andReg | xorReg | ldVxDt => exact .of_next h (.writeReg _ rfl)
  | addReg x y | sub x y | shr x y | subn x y | shl x y => exact .of_next h (.flagged (y := y) _ _ _ (by simp))
  | ldI addr => exact .of_next h (.setI (toNat_jumpTarget_le addr) (.inl ⟨addr, rfl⟩))
  | jpV0 addr => exact .of_next h (.jump (toNat_jumpOffsetTarget_le addr s))
  | rnd x kk => exact .of_next h (.random x kk _)
  | drw => exact effect_of_execDrw h
  | skp x | sknp x => exact .of_next h (.keySkip x _ rfl)
  | ldVxK => exact effect_of_exec_ldVxK h
  | ldDtVx x => exact .of_next h (.setDt x)
  | ldStVx x => exact .of_next h (.setSt x)
  | addI x => exact .of_next ((exec_addI x s).symm.trans h) (.addI x _ (toNat_maskedIndex_le _))
  | ldF => exact effect_of_execLdF h
  | ldB => exact effect_of_execLdB h
  | stRegs => exact effect_of_execStRegs h
  | ldRegs => exact effect_of_execLdRegs h

/-- What a step does: one of the sequencer's two reports, or what the fetched instruction does to the post-fetch
state (R69). -/
theorem effect_of_step {s t : State} (h : step s = .next t) :
    (¬ fetchable s.pc ∧ t = reportPcOutOfRange (beginStep s)) ∨
    (fetchable s.pc ∧ t = reportUnknown (wordAt s.mem s.pc.toNat) (postFetch s)) ∨
    (fetchable s.pc ∧ ∃ i, Fetches s i ∧ Effect (postFetch s) i t) := by
  obtain houtside | ⟨hwindow, -, hunknown⟩ | ⟨hwindow, i, hword, hexec⟩ := step_next h
  · exact .inl houtside
  · exact .inr (.inl ⟨hwindow, hunknown⟩)
  · exact .inr (.inr ⟨hwindow, i, (fetches_iff s i).mpr ⟨hwindow, hword⟩, effect_of_exec hexec⟩)

end Sys2Proof.Proofs
end

section
/-! The invariants (10_state.md R22, R23, R27; 20_memory.md R52): each kind of change keeps them, so every step and
every operation of the host does. -/

namespace Sys2Proof.Proofs

open Sys2Proof Sys2Proof.Machine Sys2Proof.Safety Sys2Proof.Laws

/-! ### Memory, index and stack -/

/-- The invariant speaks of five parts of the state only. -/
theorem inv_of_eq {s t : State} (hinv : Inv s) (hmem : t.mem = s.mem) (hi : t.i = s.i) (hstack : t.stack = s.stack)
    (hsp : t.sp = s.sp) (hparams : t.params = s.params) : Inv t := by
  unfold Safety.Inv StackOk
  rwa [hmem, hi, hstack, hsp, hparams]

theorem inv_of_effect {i : Instr} {s t : State} (hinv : Inv s) (h : Effect s i t) : Inv t := by
  have ⟨hwf, hindex, ⟨hlength, hdepth⟩, hlegal⟩ := hinv
  cases h with
  | report | writeReg | flagged | random | clear | draw | jump | wait | setDt | setSt | loadRegs => exact hinv
  | skip | keySkip => exact inv_of_eq hinv (by simp) (by simp) (by simp) (by simp) (by simp)
  | overflow => exact hinv
  | pop => exact ⟨hwf, hindex, ⟨hlength, (Nat.sub_le _ _).trans hdepth⟩, hlegal⟩
  | push addr hroom => exact ⟨hwf, hindex, ⟨List.length_set.trans hlength, hroom.trans_eq hlength⟩, hlegal⟩
  | setI ha => exact ⟨hwf, ha, ⟨hlength, hdepth⟩, hlegal⟩
  | @addI a x c ha =>
    have hset : Inv (s.setI a) := ⟨hwf, ha, ⟨hlength, hdepth⟩, hlegal⟩
    exact inv_of_eq hset (by simp) (by simp) (by simp) (by simp) (by simp)
  | store hlow hin => exact ⟨wf_writeBytes hwf _ _ hin, hindex, ⟨hlength, hdepth⟩, hlegal⟩
  | storeWarned x hpolicy hin => exact ⟨wf_writeBytes hwf _ _ hin, hindex, ⟨hlength, hdepth⟩, hlegal⟩

/-- Settles O56: the sequencer touches no part of the invariant, and every kind of change an instruction makes keeps
it. -/
theorem stepKeepsMemoryIndexAndStackInBounds : Obligations.StepKeepsMemoryIndexAndStackInBounds := by
  intro s t hinv h
  obtain ⟨-, rfl⟩ | ⟨-, rfl⟩ | ⟨-, i, -, heffect⟩ := effect_of_step h
  · exact hinv
  · exact hinv
  · exact inv_of_effect (s := postFetch s) hinv heffect

/-- A reset leads into the invariant from any state whose parameters are legal (R170). -/
theorem inv_resetOp {s : State} (hlegal : s.params.legal) : Inv (resetOp s) :=
  ⟨wf_resetMemory s.params.font, Nat.zero_le 0xFFF, ⟨List.length_replicate, Nat.zero_le _⟩, hlegal⟩

/-- Settles O60: a step is O56, a reset builds memory and stack anew, a load is a write in range, and the other
operations touch no part of the invariant. -/
theorem everyHostOperationKeepsTheInvariant : Obligations.EveryHostOperationKeepsTheInvariant := by
  refine ⟨fun op s t hinv h => ?keeps, fun p hlegal => inv_resetOp hlegal⟩
  case keeps =>
    have ⟨hwf, hindex, hstack, hlegal⟩ := hinv
    cases op with
    | reset => exact next_inj.mp h ▸ inv_resetOp hlegal
    | load rom => exact next_inj.mp h ▸ ⟨wf_load rom hwf, hindex, hstack, hlegal⟩
    | step => exact stepKeepsMemoryIndexAndStackInBounds s t hinv h
    | setKeys | tickTimers | forcePc => exact next_inj.mp h ▸ hinv

/-- Settles O57, by induction on how the host reached the state: O60 is both the start and the step. -/
theorem reachableStatesMeetTheInvariant : Obligations.ReachableStatesMeetTheInvariant := by
  obtain ⟨hkeeps, hreset⟩ := everyHostOperationKeepsTheInvariant
  intro s hreach
  induction hreach with
  | reset p hlegal => exact hreset p hlegal
  | host op s t _ hop hinv => exact hkeeps op s t hinv hop

/-! ### The program counter and the return addresses -/

/-- Settles O55: every part that the two invariants bound is 0 after a reset, and `PC` is `0x200`. -/
theorem resetMeetsTheInvariants : Obligations.ResetMeetsTheInvariants := by
  refine ⟨by decide, by decide, fun a ha => ?entry⟩
  case entry =>
    rw [List.eq_of_mem_replicate ha]
    decide

/-- From a post-fetch `PC` a skip goes to `0x1002` at most, a jump to `0x10FE`, and a return to an earlier post-fetch
`PC` (R23, R105). -/
theorem pcBounded_of_effect {i : Instr} {s t : State} (hlow : 2 ≤ s.pc.toNat) (hhigh : s.pc.toNat ≤ 0x1000)
    (hentries : ∀ a ∈ s.stack, a.toNat ≤ 0x1000) (h : Effect s i t) : PcBounded t := by
  have hkept : s.pc.toNat ≤ 0x10FE := hhigh.trans (by decide)
  have hskip (c : Bool) : (if c then s.pc + 2 else s.pc).toNat ≤ 0x10FE := by split <;> bv_omega
  cases h with
  | report | writeReg | flagged | random | clear | draw | setI | setDt | setSt | store | storeWarned | loadRegs =>
    exact ⟨hkept, hentries⟩
  | addI => exact ⟨by simpa using hkept, by simpa using hentries⟩
  | skip c | keySkip x c => exact ⟨by simpa using hskip c, by simpa using hentries⟩
  | jump ha => exact ⟨ha, hentries⟩
  | wait => exact ⟨(BitVec.toNat_sub_of_le (by bv_omega)).trans_le (by bv_omega), hentries⟩
  | overflow addr => exact ⟨(toNat_jumpTarget_le addr).trans (by decide), hentries⟩
  | pop ha =>
    exact ⟨(hentries _ (List.mem_of_getElem? ha)).trans (by decide), hentries⟩
  | push addr =>
    refine ⟨(toNat_jumpTarget_le addr).trans (by decide), fun a ha => ?_⟩
    obtain hold | rfl := List.mem_or_eq_of_mem_set ha
    · exact hentries a hold
    · exact hhigh

/-- The post-fetch `PC` of a step in the fetch window is `0x1000` at most (R69). -/
theorem toNat_postFetch_pc {s : State} (h : fetchable s.pc) : (postFetch s).pc.toNat = s.pc.toNat + 2 := by
  obtain ⟨-, hhigh⟩ := h
  rw [postFetch_pc]
  bv_omega

/-- Settles O58: outside the fetch window `PC` stays, and inside it the post-fetch `PC` is at most `0x1000`, from where
no kind of change goes further than the bounds. -/
theorem stepKeepsPcAndReturnAddressesBounded : Obligations.StepKeepsPcAndReturnAddressesBounded := by
  intro s t hbounded h
  have hentries := hbounded.2
  obtain ⟨-, rfl⟩ | ⟨hwindow, rfl⟩ | ⟨hwindow, i, -, heffect⟩ := effect_of_step h
  · exact hbounded
  · have hpc := toNat_postFetch_pc hwindow
    obtain ⟨-, hhigh⟩ := hwindow
    exact ⟨hpc.trans_le (by omega), hentries⟩
  · have hpc := toNat_postFetch_pc hwindow
    obtain ⟨-, hhigh⟩ := hwindow
    exact pcBounded_of_effect (s := postFetch s) (by omega) (by omega) hentries heffect

/-! ### The reserved area -/

theorem byteAt_of_effect_below {i : Instr} {s t : State} {a : Nat} (hpolicy : s.params.transfer = .reject)
    (ha : a < programBase) (h : Effect s i t) : byteAt t.mem a = byteAt s.mem a := by
  cases h with
  | store hlow hin => exact byteAt_writeBytes_outside _ _ _ _ (.inl (by omega))
  | storeWarned x hwarn => simp [hpolicy] at hwarn
  | _ => simp

/-- Settles O45: below `0x200` a byte could only be changed by a store, which `REJECT` runs from `0x200` on only, or by a
load, which begins there. -/
theorem reservedAreaIsReadOnlyUnderReject : Obligations.ReservedAreaIsReadOnlyUnderReject := by
  intro op s t hpolicy hop h a ha
  cases op with
  | reset => exact absurd rfl hop
  | load rom => exact next_inj.mp h ▸ byteAt_writeBytes_outside _ _ _ _ (.inl ha)
  | step =>
    obtain ⟨-, rfl⟩ | ⟨-, rfl⟩ | ⟨-, i, -, heffect⟩ := effect_of_step h
    · rfl
    · rfl
    · exact byteAt_of_effect_below (s := postFetch s) hpolicy ha heffect
  | setKeys | tickTimers | forcePc => exact next_inj.mp h ▸ rfl

end Sys2Proof.Proofs
end

section
/-! The sprite draw (43_display.md): what it does to every pixel and to `VF`, said once, and the two draws of R122. -/

namespace Sys2Proof.Proofs

open Sys2Proof Sys2Proof.Machine Sys2Proof.Safety Sys2Proof.Laws

/-! ### The covered pixels -/

theorem eq_spriteCol_iff (c : Col) (vx : Byte) (j : Nat) : c = spriteCol vx j ↔ c.val = (vx.toNat + j) % 64 :=
  Fin.ext_iff

theorem eq_spriteRow_iff (r : Row) (vy : Byte) (k : Nat) : r = spriteRow vy k ↔ r.val = (vy.toNat + k) % 32 :=
  Fin.ext_iff

/-- The bits of the sprite as a draw reads them are those at `I` (R120). -/
theorem spriteBit_bytesFrom {s : State} {n : Nibble} {k j : Nat} (hk : k < n.toNat) :
    spriteBit ((bytesFrom s.mem s.i.toNat n.toNat).getD k 0) j = true ↔ SpriteHasBit s k j := by
  rw [getD_bytesFrom, if_pos hk]
  rfl

/-- The pixels that the blit inverts are those that the sprite at `I` covers (R120, R121). -/
theorem covers_bytesFrom_iff (s : State) (x y : Reg) (n : Nibble) (c : Col) (r : Row) :
    Covers (s.reg x) (s.reg y) 0 (bytesFrom s.mem s.i.toNat n.toNat) c r ↔ SpriteCovers s x y n c r := by
  unfold Covers SpriteCovers
  simp only [length_bytesFrom, eq_spriteCol_iff, eq_spriteRow_iff, Nat.zero_add]
  refine exists_congr fun k => exists_congr fun j => and_congr_right fun hk => and_congr_right fun _ => ?_
  rw [spriteBit_bytesFrom hk]

/-- The covered pixels depend on `I`, the sprite and the two coordinates only. -/
theorem spriteCovers_congr {s u : State} {x y : Reg} (n : Nibble) (hi : u.i = s.i)
    (hmem : ∀ a, byteAt u.mem a = byteAt s.mem a) (hx : u.reg x = s.reg x) (hy : u.reg y = s.reg y) (c : Col)
    (r : Row) : SpriteCovers u x y n c r ↔ SpriteCovers s x y n c r := by
  unfold SpriteCovers SpriteHasBit
  rw [hi, hx, hy]
  simp only [hmem]

/-! ### One draw -/

/-- The sprite at `I` blitted onto the display (R121). -/
def blit (x y : Reg) (n : Nibble) (s : State) : Canvas :=
  drawSprite s.fb (s.reg x) (s.reg y) (bytesFrom s.mem s.i.toNat n.toNat)

/-- A sprite has at most 15 rows, so no two of them land on the same row of the display. -/
theorem length_sprite_le (s : State) (n : Nibble) : 0 + (bytesFrom s.mem s.i.toNat n.toNat).length ≤ 32 := by
  rw [length_bytesFrom]
  omega

theorem pixel_blit_covered {x y : Reg} {n : Nibble} {s : State} {c : Col} {r : Row} (h : SpriteCovers s x y n c r) :
    pixel (blit x y n s).fb c r = !pixel s.fb c r := by
  have hpixel := (drawRows_spec (s.reg x) (s.reg y) _ 0 (length_sprite_le s n) ⟨s.fb, false⟩).1 c r
  rw [blit, drawSprite, hpixel]
  simp [covers_bytesFrom_iff, h]

theorem pixel_blit_uncovered {x y : Reg} {n : Nibble} {s : State} {c : Col} {r : Row}
    (h : ¬ SpriteCovers s x y n c r) : pixel (blit x y n s).fb c r = pixel s.fb c r := by
  have hpixel := (drawRows_spec (s.reg x) (s.reg y) _ 0 (length_sprite_le s n) ⟨s.fb, false⟩).1 c r
  rw [blit, drawSprite, hpixel]
  simp [covers_bytesFrom_iff, h]

theorem collision_blit_iff (x y : Reg) (n : Nibble) (s : State) :
    (blit x y n s).collision = true ↔ ∃ c r, SpriteCovers s x y n c r ∧ pixel s.fb c r = true := by
  have hcollision := (drawRows_spec (s.reg x) (s.reg y) _ 0 (length_sprite_le s n) ⟨s.fb, false⟩).2
  rw [blit, drawSprite, hcollision]
  simp [covers_bytesFrom_iff]

/-- The state after a draw inside memory. -/
def drawn (x y : Reg) (n : Nibble) (s : State) : State :=
  ({ s with fb := (blit x y n s).fb }.setReg VF (collisionFlag (blit x y n s).collision)).notifyDisplay

theorem drawn_reg_vf (x y : Reg) (n : Nibble) (s : State) :
    (drawn x y n s).reg VF = collisionFlag (blit x y n s).collision :=
  reg_setReg_self _ _ _

theorem exec_drw_inside {x y : Reg} {n : Nibble} {s : State} (h : s.i.toNat + n.toNat ≤ 0x1000) :
    exec (.drw x y n) s = .next (drawn x y n s) :=
  (if_pos h).trans (withBytes_inside s _ _ _ h)

theorem drawn_reg_vf_of_hit {x y : Reg} {n : Nibble} {s : State}
    (h : ∃ c r, SpriteCovers s x y n c r ∧ pixel s.fb c r = true) : (drawn x y n s).reg VF = 1#8 := by
  rw [drawn_reg_vf, (collision_blit_iff x y n s).mpr h]
  rfl

theorem drawn_reg_vf_of_miss {x y : Reg} {n : Nibble} {s : State}
    (h : ¬ ∃ c r, SpriteCovers s x y n c r ∧ pixel s.fb c r = true) : (drawn x y n s).reg VF = 0#8 := by
  rw [drawn_reg_vf, Bool.eq_false_iff.mpr (mt (collision_blit_iff x y n s).mp h)]
  rfl

theorem sameOutside_drawn (x y : Reg) (n : Nibble) (s : State) : SameOutside [.v, .fb, .out] s (drawn x y n s) := by
  simp [SameOutside, drawn]

/-- Settles O29: the blit inverts the covered pixels and collides where one was set; the rest is one write to `VF` and
the notification. -/
theorem drawXorsTheSpriteAndReportsCollision : Obligations.DrawXorsTheSpriteAndReportsCollision := fun x y n s hin =>
  ⟨drawn x y n s, exec_drw_inside hin, fun _ _ => pixel_blit_covered, fun _ _ => pixel_blit_uncovered,
    drawn_reg_vf_of_hit, drawn_reg_vf_of_miss, rfl, fun r hr => reg_setReg_ne _ VF r _ hr, sameOutside_drawn x y n s⟩

theorem eq_wordXYN_of_toNat {op : Word} {c n : Nibble} {x y : Reg}
    (h : op.toNat = c.toNat * 4096 + x.val * 256 + y.val * 16 + n.toNat) : op = wordXYN c x y n :=
  BitVec.eq_of_toNat_eq (h.trans (toNat_wordXYN c x y n).symm)

/-- Settles O30: the range check fails, and its report carries the word of the draw. -/
theorem spriteBeyondMemoryIsNotDrawn : Obligations.SpriteBeyondMemoryIsNotDrawn := by
  intro x y n s op hbeyond hop
  obtain rfl : op = encode (.drw x y n) := eq_wordXYN_of_toNat hop
  exact ⟨_, if_neg (Nat.not_le.mpr hbeyond), onlyReports_warn .spriteOutOfBounds (.drw x y n) s⟩

/-! ### Two draws -/

/-- Two draws of the same sprite at the same place cancel out (R122). -/
theorem blit_blit {x y : Reg} {n : Nibble} {s u : State} (hfb : u.fb = (blit x y n s).fb)
    (hcovers : ∀ c r, SpriteCovers u x y n c r ↔ SpriteCovers s x y n c r) : (blit x y n u).fb = s.fb := by
  apply framebuffer_ext
  intro c r
  by_cases h : SpriteCovers s x y n c r
  · rw [pixel_blit_covered ((hcovers c r).mpr h), hfb, pixel_blit_covered h, Bool.not_not]
  · rw [pixel_blit_uncovered (mt (hcovers c r).mp h), hfb, pixel_blit_uncovered h]

/-- The second draw hits what the first one turned on. -/
theorem hit_iff_turned_on {x y : Reg} {n : Nibble} {s u : State} (hfb : u.fb = (blit x y n s).fb)
    (hcovers : ∀ c r, SpriteCovers u x y n c r ↔ SpriteCovers s x y n c r) :
    (∃ c r, SpriteCovers u x y n c r ∧ pixel u.fb c r = true) ↔
      ∃ c r, SpriteCovers s x y n c r ∧ pixel s.fb c r = false := by
  refine exists_congr fun c => exists_congr fun r => ?_
  rw [hcovers]
  refine and_congr_right fun h => ?_
  rw [hfb, pixel_blit_covered h, Bool.not_eq_true']

/-- Settles O31: the second draw covers the same pixels, so it undoes the first and hits exactly the covered pixels that
were clear before it. -/
theorem drawingTwiceRestoresTheDisplay : Obligations.DrawingTwiceRestoresTheDisplay := by
  intro x y n s t u hin hdraw hfb hi hmem hx hy
  obtain rfl := next_inj.mp ((exec_drw_inside hin).symm.trans hdraw)
  have hcovers := spriteCovers_congr n hi hmem hx hy
  have hhit := hit_iff_turned_on hfb hcovers
  exact ⟨drawn x y n u, exec_drw_inside (hi ▸ hin), blit_blit hfb hcovers, fun h => drawn_reg_vf_of_hit (hhit.mpr h),
    fun h => drawn_reg_vf_of_miss (mt hhit.mp h)⟩

/-- Each set bit of a sprite covers a pixel, and nothing else does (R120). -/
theorem exists_spriteCovers_iff (s : State) (x y : Reg) (n : Nibble) :
    (∃ c r, SpriteCovers s x y n c r) ↔ ∃ k j, k < n.toNat ∧ j < 8 ∧ SpriteHasBit s k j := by
  constructor
  · rintro ⟨c, r, k, j, hk, hj, hbit, -, -⟩
    exact ⟨k, j, hk, hj, hbit⟩
  · rintro ⟨k, j, hk, hj, hbit⟩
    exact ⟨spriteCol (s.reg x) j, spriteRow (s.reg y) k, k, j, hk, hj, hbit, rfl, rfl⟩

/-- Settles O59, from O31: where every covered pixel was clear, one of them was clear iff the sprite has a bit set. -/
theorem secondDrawOverClearPixelsTellsAnyBit : Obligations.SecondDrawOverClearPixelsTellsAnyBit := by
  intro x y n s t u hin hdraw hfb hi hmem hx hy hclear
  obtain ⟨w, hexec, hrestored, hhit, hmissed⟩ := drawingTwiceRestoresTheDisplay x y n s t u hin hdraw hfb hi hmem hx hy
  have hany : (∃ c r, SpriteCovers s x y n c r ∧ pixel s.fb c r = false) ↔
      ∃ k j, k < n.toNat ∧ j < 8 ∧ SpriteHasBit s k j := by
    rw [← exists_spriteCovers_iff s x y n]
    exact exists_congr fun c => exists_congr fun r => and_iff_left_of_imp (hclear c r)
  exact ⟨w, hexec, hrestored, fun h => hhit (hany.mpr h), fun h => hmissed (mt hany.mp h)⟩

end Sys2Proof.Proofs
end

section
/-! Which instruction writes which part of the state (10_state.md R20 to R30, 20_memory.md R40), what a step's outcome
tells (R33, 60_exceptions.md R150), and that the keys are seen by their own instructions only (R158). -/

namespace Sys2Proof.Proofs

open Sys2Proof Sys2Proof.Machine Sys2Proof.Safety Sys2Proof.Laws

/-! ### Parameters, index and keys -/

theorem params_of_effect {i : Instr} {s t : State} (h : Effect s i t) : t.params = s.params := by
  cases h <;> simp

/-- Settles O51: neither the sequencer nor any kind of change, nor any other operation of the host, writes a
parameter. -/
theorem noOperationChangesTheParameters : Obligations.NoOperationChangesTheParameters := by
  intro op s t h
  cases op with
  | step =>
    obtain ⟨-, rfl⟩ | ⟨-, rfl⟩ | ⟨-, i, -, heffect⟩ := effect_of_step h
    · rfl
    · rfl
    · exact params_of_effect (s := postFetch s) heffect
  | reset | load | setKeys | tickTimers | forcePc => exact next_inj.mp h ▸ rfl

theorem keys_of_effect {i : Instr} {s t : State} (h : Effect s i t) : t.keys = s.keys := by
  cases h <;> simp

/-- Settles O52: of the kinds of change, the two that write `I` are those of these three instructions. -/
theorem onlyIndexWritersChangeI : Obligations.OnlyIndexWritersChangeI := by
  intro i s t h
  have heffect := effect_of_exec h
  refine ⟨fun hne => ?index, keys_of_effect heffect⟩
  case index =>
    cases heffect with
    | setI ha hi => exact hi.imp_right fun ⟨x, hx⟩ => ⟨x, .inr hx⟩
    | addI x => exact .inr ⟨x, .inl rfl⟩
    | _ => exact absurd (by simp) hne

/-! ### Stack, display and memory -/

theorem stack_of_effect {i : Instr} {s t : State} (h : Effect s i t) :
    t.stack = s.stack ∨ ∃ addr, i = .call addr := by
  cases h with
  | push addr => exact .inr ⟨addr, rfl⟩
  | _ => exact .inl (by simp)

theorem sp_of_effect {i : Instr} {s t : State} (h : Effect s i t) :
    t.sp = s.sp ∨ (∃ addr, i = .call addr) ∨ i = .ret := by
  cases h with
  | push addr => exact .inr (.inl ⟨addr, rfl⟩)
  | pop => exact .inr (.inr rfl)
  | _ => exact .inl (by simp)

theorem fb_of_effect {i : Instr} {s t : State} (h : Effect s i t) :
    t.fb = s.fb ∨ i = .cls ∨ ∃ x y n, i = .drw x y n := by
  cases h with
  | clear => exact .inr (.inl rfl)
  | @draw x y n => exact .inr (.inr ⟨x, y, n, rfl⟩)
  | _ => exact .inl (by simp)

theorem mem_of_effect {i : Instr} {s t : State} (h : Effect s i t) :
    t.mem = s.mem ∨ ∃ x, i = .ldB x ∨ i = .stRegs x := by
  cases h with
  | store hlow hin hi => exact .inr hi
  | storeWarned x => exact .inr ⟨x, .inr rfl⟩
  | _ => exact .inl (by simp)

/-- Settles O53: of the kinds of change, those that write one of these parts are those of its named writers. -/
theorem onlyTheirWritersChangeStackDisplayMemory : Obligations.OnlyTheirWritersChangeStackDisplayMemory := by
  intro i s t h
  have heffect := effect_of_exec h
  exact ⟨(stack_of_effect heffect).resolve_left, (sp_of_effect heffect).resolve_left,
    (fb_of_effect heffect).resolve_left,
    fun a hne => (mem_of_effect heffect).resolve_left fun hmem => hne (congrArg (byteAt · a) hmem)⟩

/-! ### The flag register -/

/-- The instructions with register 15 as their ordinary destination (R21). -/
def WritesVfAsDestination (i : Instr) : Prop :=
  ∃ kk y, i ∈ [Instr.ldByte VF kk, .addByte VF kk, .ldReg VF y, .orReg VF y, .andReg VF y, .xorReg VF y,
    .rnd VF kk, .ldVxDt VF, .ldVxK VF, .ldRegs VF]

theorem writesVfAsDestination_of_plainDest {i : Instr} (h : plainDest i = some VF) : WritesVfAsDestination i := by
  cases i with
  | ldByte x kk | addByte x kk => cases h; exact ⟨kk, 0, by simp⟩
  | ldReg x y | orReg x y | andReg x y | xorReg x y => cases h; exact ⟨0, y, by simp⟩
  | ldVxDt x | ldVxK x => cases h; exact ⟨0, 0, by simp⟩
  | _ => cases h

theorem eq_of_reg_setReg_ne {s : State} {r q : Reg} {b : Byte} (h : (s.setReg r b).reg q ≠ s.reg q) : r = q := by
  by_contra hne
  exact h (reg_setReg_ne s r q b (Ne.symm hne))

/-- A register beyond the bytes loaded keeps its value (R143). -/
theorem reg_loadedRegs_beyond (s : State) (bs : List Byte) (r : Reg) (h : bs.length ≤ r.val) :
    ({ s with v := loadedRegs s.v bs } : State).reg r = s.reg r := by
  unfold State.reg
  rw [getElem_loadedRegs, List.getD_eq_getElem?_getD, List.getElem?_eq_none h]
  rfl

theorem vfWriter_of_effect {i : Instr} {s t : State} (h : Effect s i t) (hne : t.reg VF ≠ s.reg VF) :
    (∃ x y, i ∈ [Instr.addReg x y, .sub x y, .subn x y, .shr x y, .shl x y]) ∨
    (∃ x y n, i = .drw x y n) ∨ (∃ x, i = .addI x) ∨ WritesVfAsDestination i := by
  cases h with
  | @writeReg _ x b hi =>
    obtain rfl : x = VF := eq_of_reg_setReg_ne hne
    exact .inr (.inr (.inr (writesVfAsDestination_of_plainDest hi)))
  | @flagged _ x y rd f g hi => exact .inl ⟨x, y, hi⟩
  | random x kk b =>
    obtain rfl : x = VF := eq_of_reg_setReg_ne hne
    exact .inr (.inr (.inr ⟨kk, 0, by simp⟩))
  | @draw x y n => exact .inr (.inl ⟨x, y, n, rfl⟩)
  | addI x => exact .inr (.inr (.inl ⟨x, rfl⟩))
  | loadRegs x hlength =>
    have hreach : ¬ x.val + 1 ≤ 15 := fun hle => hne (reg_loadedRegs_beyond s _ VF (hlength.trans_le hle))
    obtain rfl : x = VF := Fin.ext (show x.val = 15 by omega)
    exact .inr (.inr (.inr ⟨0, 0, by simp⟩))
  | _ => exact absurd (by simp [State.reg]) hne

/-- Settles O21: of the kinds of change, those that write a register are the flags, the draw, `Fx1E` and the writes of
a destination. -/
theorem onlyFlagWritersAndDestinationsChangeVf : Obligations.OnlyFlagWritersAndDestinationsChangeVf :=
  fun _ _ _ h hne => vfWriter_of_effect (effect_of_exec h) hne

/-! ### The outcome of a step -/

theorem displayChanged_of_effect {i : Instr} {s t : State} (h : Effect s i t) :
    t.out.displayChanged = s.out.displayChanged ∨ i = .cls ∨
      ∃ x y n, i = .drw x y n ∧ s.i.toNat + n.toNat ≤ 0x1000 := by
  cases h with
  | clear => exact .inr (.inl rfl)
  | @draw x y n k hin => exact .inr (.inr ⟨x, y, n, rfl, hin⟩)
  | keySkip x => exact .inl (by rw [skipIf_out, warnKeyIndex_out]; split <;> rfl)
  | _ => exact .inl (by simp)

theorem awaitingKey_of_effect {i : Instr} {s t : State} (h : Effect s i t) :
    t.out.awaitingKey = s.out.awaitingKey ∨ (∃ x, i = .ldVxK x) ∧ s.keys = 0#16 := by
  cases h with
  | wait x hkeys => exact .inr ⟨⟨x, rfl⟩, hkeys⟩
  | keySkip x => exact .inl (by rw [skipIf_out, warnKeyIndex_out]; split <;> rfl)
  | _ => exact .inl (by simp)

/-- Settles O10: the outcome is cleared before the instruction runs, and of the kinds of change the clear and the draw
set one bit, the wait the other. -/
theorem outcomeBitsTellWhatTheStepDid : Obligations.OutcomeBitsTellWhatTheStepDid := by
  refine fun s t h => ⟨⟨fun hbit => ?display, ?displayed⟩, ⟨fun hbit => ?key, ?awaited⟩⟩
  case display =>
    obtain ⟨-, rfl⟩ | ⟨-, rfl⟩ | ⟨-, i, hfetch, heffect⟩ := effect_of_step h
    · cases hbit
    · cases hbit
    · obtain hkept | rfl | ⟨x, y, n, rfl, hin⟩ := displayChanged_of_effect heffect
      · cases hkept.symm.trans hbit
      · exact .inl hfetch
      · exact .inr ⟨x, y, n, hfetch, hin⟩
  case displayed =>
    rintro (hfetch | ⟨x, y, n, hfetch, hin⟩)
    · exact next_inj.mp ((step_of_fetches hfetch).symm.trans h) ▸ rfl
    · have hdraw := exec_drw_inside (x := x) (y := y) (s := postFetch s) hin
      exact next_inj.mp (hdraw.symm.trans ((step_of_fetches hfetch).symm.trans h)) ▸ rfl
  case key =>
    obtain ⟨-, rfl⟩ | ⟨-, rfl⟩ | ⟨-, i, hfetch, heffect⟩ := effect_of_step h
    · cases hbit
    · cases hbit
    · obtain hkept | ⟨⟨x, rfl⟩, hkeys⟩ := awaitingKey_of_effect heffect
      · cases hkept.symm.trans hbit
      · exact ⟨⟨x, hfetch⟩, hkeys⟩
  case awaited =>
    rintro ⟨⟨x, hfetch⟩, hkeys⟩
    exact next_inj.mp ((step_keyWait hfetch hkeys).symm.trans h) ▸ rfl

/-- An instruction reports its own kind, with its own word and address, or leaves the diagnostic alone (R150). -/
theorem diag_of_effect {i : Instr} {s t : State} (h : Effect s i t) : t.out.diag = s.out.diag ∨
    ∃ k, reportKind i = some k ∧ t.out.diag = some ⟨k, some (encode i), s.pcInst⟩ := by
  cases h with
  | report hk => exact .inr ⟨_, hk, rfl⟩
  | overflow | storeWarned => exact .inr ⟨_, rfl, rfl⟩
  | keySkip x c hk =>
    rw [skipIf_out, warnKeyIndex_out]
    split
    · exact .inr ⟨_, hk, rfl⟩
    · exact .inl rfl
  | _ => exact .inl (by simp)

theorem reportKind_ne_programCounterOutOfRange {i : Instr} {k : DiagKind} (h : reportKind i = some k) :
    k ≠ .programCounterOutOfRange := by
  rintro rfl
  cases i <;> cases h

/-- The skips whose low nibble is ignored report nothing, so a report carries the very word that was decoded. -/
theorem encode_of_reportKind {m : Decode59} {op : Word} {i : Instr} {k : DiagKind} (h : decodeWord m op = .ok i)
    (hk : reportKind i = some k) : encode i = op := by
  obtain ⟨-, hword⟩ | ⟨-, ⟨rfl, -⟩ | ⟨rfl, -⟩⟩ := isWordOf_of_decodeWord h
  · exact hword
  · cases hk
  · cases hk

/-- Settles O9: the sequencer reports `PC` or the fetched word itself, and an instruction reports its own word, which is
the fetched one. -/
theorem diagnosticsNameTheFetchedWord : Obligations.DiagnosticsNameTheFetchedWord := by
  intro s t d h hd
  obtain ⟨houtside, rfl⟩ | ⟨-, rfl⟩ | ⟨-, i, hfetch, heffect⟩ := effect_of_step h
  · obtain rfl := Option.some.inj hd
    refine ⟨rfl, fun _ => ⟨rfl, ?_⟩, fun hne => absurd rfl hne⟩
    unfold fetchable programBase at houtside
    omega
  · obtain rfl := Option.some.inj hd
    exact ⟨pcInst_postFetch s, nofun, fun _ => ⟨_, rfl, toNat_wordAt s.mem s.pc.toNat⟩⟩
  · obtain hkept | ⟨k, hk, hreport⟩ := diag_of_effect heffect
    · cases hkept.symm.trans hd
    · obtain rfl := Option.some.inj (hreport.symm.trans hd)
      have hword := encode_of_reportKind ((fetches_iff s i).mp hfetch).2 hk
      exact ⟨pcInst_postFetch s, fun heq => absurd heq (reportKind_ne_programCounterOutOfRange hk),
        fun _ => ⟨_, rfl, hword ▸ toNat_wordAt s.mem s.pc.toNat⟩⟩

end Sys2Proof.Proofs
end

section
/-! The step as a whole (30_encoding.md R69): it runs the decoded instruction, it is stuck outside the fetch window, it
always goes on but for the refused transfer (R131, R152), and what keys are pressed does not enter but by the key
instructions (60_exceptions.md R158). -/

namespace Sys2Proof.Proofs

open Sys2Proof Sys2Proof.Machine Sys2Proof.Safety Sys2Proof.Laws

/-! ### The sequencer -/

/-- Settles O7: the state an instruction runs on is the post-fetch state. -/
theorem stepRunsTheDecodedInstruction : Obligations.StepRunsTheDecodedInstruction :=
  fun _ _ hfetch => step_of_fetches hfetch

/-- The report of a step outside the fetch window. -/
abbrev stuck (s : State) : State := reportPcOutOfRange (beginStep s)

/-- A state that is stuck reports the same again, whatever became of its keys and timers. -/
theorem step_eq_self_of_stuck {s : State} (houtside : ¬ fetchable s.pc) (hout : s.out = (stuck s).out) :
    step s = .next s := by
  rw [step_outside houtside, next_inj]
  cases s
  simp_all [reportPcOutOfRange, beginStep, State.setDiag]

/-- Settles O8: the report writes the outcome only, and neither `PC` nor the outcome is touched by a tick or a change of
keys. -/
theorem fetchOutsideTheWindowIsStuck : Obligations.FetchOutsideTheWindowIsStuck := by
  intro s hpc
  have houtside : ¬ fetchable s.pc := by
    unfold fetchable programBase
    omega
  exact ⟨stuck s, step_outside houtside, rfl, step_eq_self_of_stuck (s := stuck s) houtside rfl,
    step_eq_self_of_stuck (s := tickTimers (stuck s)) houtside rfl,
    fun k => step_eq_self_of_stuck (s := setKeys k (stuck s)) houtside rfl⟩

/-! ### Progress -/

/-- An outcome that goes on. -/
def GoesOn (r : Result) : Prop := ∃ t, r = .next t

theorem goesOn_execRet {s : State} (hstack : StackOk s) : GoesOn (execRet s) := by
  obtain ⟨hlength, hdepth⟩ := hstack
  unfold execRet
  split
  · exact ⟨_, rfl⟩
  · exact ⟨_, popPc_inside s (by omega)⟩

theorem goesOn_execCall {s : State} (addr : Addr) (hstack : StackOk s) : GoesOn (execCall addr s) := by
  obtain ⟨hlength, hdepth⟩ := hstack
  unfold execCall
  split
  · exact ⟨_, rfl⟩
  · exact ⟨_, pushThen_inside s _ _ (by omega)⟩

theorem goesOn_execDrw (x y : Reg) (n : Nibble) (s : State) : GoesOn (execDrw x y n s) := by
  unfold execDrw
  split
  · next hin => exact ⟨_, withBytes_inside s _ _ _ hin⟩
  · exact ⟨_, rfl⟩

theorem goesOn_exec_ldVxK (x : Reg) (s : State) : GoesOn (exec (.ldVxK x) s) := by
  by_cases hkeys : s.keys = 0#16
  · exact ⟨_, exec_ldVxK_waits x hkeys⟩
  · exact ⟨_, exec_ldVxK_takes x hkeys⟩

theorem goesOn_execLdF (x : Reg) (s : State) : GoesOn (execLdF x s) := by
  unfold execLdF
  split <;> exact ⟨_, rfl⟩

theorem goesOn_execLdB (x : Reg) (s : State) : GoesOn (execLdB x s) := by
  unfold execLdB
  split
  · next hrange => exact ⟨_, storeBytes_inside s _ _ hrange.2⟩
  · exact ⟨_, rfl⟩

theorem goesOn_saveRegs {x : Reg} {s : State} (h : s.i.toNat + (x.val + 1) ≤ memorySize) : GoesOn (saveRegs x s) :=
  ⟨_, storeBytes_inside s _ _ (by rwa [length_regsUpTo])⟩

theorem goesOn_loadRegs {x : Reg} {s : State} (h : s.i.toNat + (x.val + 1) ≤ memorySize) : GoesOn (loadRegs x s) :=
  ⟨_, withBytes_inside s _ _ _ h⟩

/-- The refusal of R131 and what brings it about: under `WARN`, a range that ends above `0xFFF`. -/
def RefusedTransfer (x : Reg) (s : State) (r : Result) : Prop :=
  r = .refused .transferBeyondMemory ∧ s.params.transfer = .warn ∧ 0xFFF < s.i.toNat + x.val

/-- A transfer that goes on wherever its range is inside memory goes on under the range policy, or is refused. -/
theorem goesOn_transferByPolicy {ok : Bool} {i : Instr} {x : Reg} {go : State → Result} {s : State}
    (hok : ok = true → s.i.toNat + (x.val + 1) ≤ memorySize)
    (hgo : ∀ {u : State}, u.i.toNat + (x.val + 1) ≤ memorySize → GoesOn (go u)) :
    GoesOn (transferByPolicy ok i x go s) ∨ RefusedTransfer x s (transferByPolicy ok i x go s) := by
  unfold transferByPolicy
  split
  · next h => exact .inl (hgo (hok h))
  · split
    · exact .inl ⟨_, rfl⟩
    · next hpolicy =>
      split
      · next hin => exact .inl (hgo (u := warn _ i s) hin)
      · next hbeyond => exact .inr ⟨rfl, hpolicy, by unfold readOK memorySize at hbeyond; omega⟩

/-- Every instruction goes on from a whole stack, but for a transfer that is refused. -/
theorem goesOn_exec {s : State} (hstack : StackOk s) (i : Instr) : GoesOn (exec i s) ∨
    ∃ x, (i = .stRegs x ∨ i = .ldRegs x) ∧ RefusedTransfer x s (exec i s) := by
  cases i with
  | ret => exact .inl (goesOn_execRet hstack)
  | call addr => exact .inl (goesOn_execCall addr hstack)
  | drw x y n => exact .inl (goesOn_execDrw x y n s)
  | ldVxK x => exact .inl (goesOn_exec_ldVxK x s)
  | ldF x => exact .inl (goesOn_execLdF x s)
  | ldB x => exact .inl (goesOn_execLdB x s)
  | stRegs x =>
    exact (goesOn_transferByPolicy (fun h => (of_decide_eq_true h).2) goesOn_saveRegs).imp_right
      fun hrefused => ⟨x, .inl rfl, hrefused⟩
  | ldRegs x =>
    exact (goesOn_transferByPolicy of_decide_eq_true goesOn_loadRegs).imp_right
      fun hrefused => ⟨x, .inr rfl, hrefused⟩
  | _ => exact .inl ⟨_, rfl⟩

/-- Settles O46: the sequencer itself always goes on, and so does every instruction from a whole stack, but for the
refused transfer. -/
theorem stepAlwaysGoesOn : Obligations.StepAlwaysGoesOn := by
  intro s hinv
  obtain ⟨-, -, hstack, -⟩ := hinv
  by_cases hnext : ∃ t, step s = .next t
  · exact .inl hnext
  · obtain ⟨hwindow, i, hword, hstep⟩ := step_not_next (not_exists.mp hnext)
    have hfetch : Fetches s i := (fetches_iff s i).mpr ⟨hwindow, hword⟩
    obtain hgoes | ⟨x, rfl | rfl, hrefused, hpolicy, hbeyond⟩ := goesOn_exec (s := postFetch s) hstack i
    · exact absurd (hstep ▸ hgoes) hnext
    · exact .inr ⟨hstep.trans hrefused, hpolicy, x, .inl hfetch, hbeyond⟩
    · exact .inr ⟨hstep.trans hrefused, hpolicy, x, .inr hfetch, hbeyond⟩

/-! ### The keys -/

/-- An outcome with other keys pressed. -/
def withKeys (k : Word) : Result → Result
  | .next t => .next (setKeys k t)
  | .fault r => .fault r
  | .refused r => .refused r

theorem skipIf_setKeys (k : Word) (s : State) (c : Bool) : (setKeys k s).skipIf c = setKeys k (s.skipIf c) := by
  cases c <;> rfl

theorem indexOverflowFlag_setKeys (k : Word) (s : State) (c : Bool) :
    indexOverflowFlag c (setKeys k s) = setKeys k (indexOverflowFlag c s) := by
  unfold indexOverflowFlag
  rw [setKeys_params]
  split <;> rfl

theorem storeBytes_setKeys (k : Word) (s : State) (base : Nat) (bs : List Byte) :
    storeBytes (setKeys k s) base bs = withKeys k (storeBytes s base bs) := by
  unfold storeBytes
  rw [setKeys_mem]
  split <;> rfl

theorem withBytes_setKeys (k : Word) (s : State) (base len : Nat) {go go' : List Byte → Result}
    (hgo : ∀ bs, go' bs = withKeys k (go bs)) :
    withBytes (setKeys k s) base len go' = withKeys k (withBytes s base len go) := by
  unfold withBytes
  rw [setKeys_mem]
  split
  · exact hgo _
  · rfl

theorem pushThen_setKeys (k : Word) (s : State) (a : Word) {go : State → Result}
    (hgo : ∀ u, go (setKeys k u) = withKeys k (go u)) :
    pushThen (setKeys k s) a go = withKeys k (pushThen s a go) := by
  unfold pushThen
  rw [setKeys_sp, setKeys_stack]
  split
  · exact hgo { s with stack := s.stack.set s.sp a, sp := s.sp + 1 }
  · rfl

theorem popPc_setKeys (k : Word) (s : State) : popPc (setKeys k s) = withKeys k (popPc s) := by
  unfold popPc
  rw [setKeys_stack, setKeys_sp]
  split <;> rfl

theorem transferByPolicy_setKeys (k : Word) {ok : Bool} {i : Instr} {x : Reg} {go : State → Result} {s : State}
    (hgo : ∀ u, go (setKeys k u) = withKeys k (go u)) :
    transferByPolicy ok i x go (setKeys k s) = withKeys k (transferByPolicy ok i x go s) := by
  unfold transferByPolicy
  rw [setKeys_params, setKeys_i]
  split
  · exact hgo s
  · split
    · rfl
    · split
      · exact hgo (warn .registerTransferOutOfBounds i s)
      · rfl

theorem saveRegs_setKeys (k : Word) (x : Reg) (s : State) : saveRegs x (setKeys k s) = withKeys k (saveRegs x s) :=
  storeBytes_setKeys k s s.i.toNat (regsUpTo x s)

theorem loadRegs_setKeys (k : Word) (x : Reg) (s : State) : loadRegs x (setKeys k s) = withKeys k (loadRegs x s) :=
  withBytes_setKeys k s _ _ fun _ => rfl

theorem execRet_setKeys (k : Word) (s : State) : execRet (setKeys k s) = withKeys k (execRet s) := by
  unfold execRet
  rw [setKeys_sp]
  split
  · rfl
  · exact popPc_setKeys k s

theorem execCall_setKeys (k : Word) (addr : Addr) (s : State) :
    execCall addr (setKeys k s) = withKeys k (execCall addr s) := by
  unfold execCall
  rw [setKeys_sp, setKeys_params]
  split
  · rfl
  · exact pushThen_setKeys k s s.pc fun _ => rfl

theorem execDrw_setKeys (k : Word) (x y : Reg) (n : Nibble) (s : State) :
    execDrw x y n (setKeys k s) = withKeys k (execDrw x y n s) := by
  unfold execDrw
  rw [setKeys_i]
  split
  · exact withBytes_setKeys k s _ _ fun _ => rfl
  · rfl

theorem execLdF_setKeys (k : Word) (x : Reg) (s : State) : execLdF x (setKeys k s) = withKeys k (execLdF x s) := by
  unfold execLdF
  rw [setKeys_reg]
  split <;> rfl

theorem execLdB_setKeys (k : Word) (x : Reg) (s : State) : execLdB x (setKeys k s) = withKeys k (execLdB x s) := by
  unfold execLdB
  rw [setKeys_i, setKeys_reg]
  split
  · exact storeBytes_setKeys k s _ _
  · rfl

/-- Away from the key instructions, the keys go through an execution unseen. -/
theorem exec_setKeys {i : Instr} (hi : ∀ x, i ≠ .skp x ∧ i ≠ .sknp x ∧ i ≠ .ldVxK x) (k : Word) (s : State) :
    exec i (setKeys k s) = withKeys k (exec i s) := by
  cases i with
  | skp x => exact absurd rfl (hi x).1
  | sknp x => exact absurd rfl (hi x).2.1
  | ldVxK x => exact absurd rfl (hi x).2.2
  | seByte | sneByte | seReg | sneReg => exact congrArg Host.Outcome.next (skipIf_setKeys k s _)
  | addI x =>
    rw [exec_addI, exec_addI]
    exact congrArg Host.Outcome.next (indexOverflowFlag_setKeys k (s.setI _) _)
  | ret => exact execRet_setKeys k s
  | call addr => exact execCall_setKeys k addr s
  | drw x y n => exact execDrw_setKeys k x y n s
  | ldF x => exact execLdF_setKeys k x s
  | ldB x => exact execLdB_setKeys k x s
  | stRegs x => exact transferByPolicy_setKeys k (saveRegs_setKeys k x)
  | ldRegs x => exact transferByPolicy_setKeys k (loadRegs_setKeys k x)
  | _ => rfl

/-- Settles O54: execution commutes with setting the keys. -/
theorem onlyKeyInstructionsSeeTheKeys : Obligations.OnlyKeyInstructionsSeeTheKeys := by
  intro i s t k hi h
  rw [exec_setKeys hi k s, h, withKeys]

end Sys2Proof.Proofs
end

section
/-! Arithmetic and logic (41_alu.md): what a flag-setting instruction leaves in its destination and in `VF` under either
read order, said once, and the instructions that write one register. -/

namespace Sys2Proof.Proofs

open Sys2Proof Sys2Proof.Machine Sys2Proof.Safety Sys2Proof.Laws

/-! ### Loads, logic and the random byte -/

/-- Settles O11: each is one write to `Vx`. -/
theorem loadsWriteOnlyVx : Obligations.LoadsWriteOnlyVx := fun x _ kk s =>
  ⟨⟨_, rfl, reg_setReg_self s x kk, onlyRegs_setReg s x kk⟩, ⟨_, rfl, reg_setReg_self s x _, onlyRegs_setReg s x _⟩⟩

/-- Settles O13: each is one write to `Vx`, of a byte that is worked out bit by bit. -/
theorem logicWorksBitByBit : Obligations.LogicWorksBitByBit := by
  intro x y s
  refine ⟨⟨_, rfl, onlyRegs_setReg s x _, fun k _ => ?or⟩, ⟨_, rfl, onlyRegs_setReg s x _, fun k _ => ?and⟩,
    ⟨_, rfl, onlyRegs_setReg s x _, fun k _ => ?xor⟩⟩
  case or => rw [reg_setReg_self, BitVec.getLsbD_or]
  case and => rw [reg_setReg_self, BitVec.getLsbD_and]
  case xor => rw [reg_setReg_self, BitVec.getLsbD_xor, Bool.bne_eq_xor]

theorem sameOutside_draw (s : State) (x : Reg) (b : Byte) :
    SameOutside [.v, .draws] s { s.setReg x b with draws := s.draws + 1 } := by
  simp [SameOutside]

/-- Settles O19: it is one write to `Vx`, of the masked draw, and a count of the draw made. -/
theorem randomIsAFreshMaskedDraw : Obligations.RandomIsAFreshMaskedDraw := by
  refine fun x kk s => ⟨_, rfl, fun k _ => ?masked, rfl, fun r hr => reg_setReg_ne s x r _ hr, sameOutside_draw s x _⟩
  case masked =>
    calc ((s.setReg x (Config.randomByte s.draws &&& kk)).reg x).getLsbD k
      _ = (Config.randomByte s.draws &&& kk).getLsbD k := by rw [reg_setReg_self]
      _ = ((Config.randomByte s.draws).getLsbD k && kk.getLsbD k) := BitVec.getLsbD_and

/-! ### The flag-setting instructions -/

theorem onlyRegs_aluFlagged (x : Reg) (rd : State → Byte × Byte) (f g : Byte → Byte → Byte) (s : State) :
    OnlyRegs [x, VF] s (aluFlagged x rd f g s) := by
  refine ⟨fun q hq => ?_, by simp [SameOutside]⟩
  simp only [List.mem_cons, List.not_mem_nil, or_false, not_or] at hq
  rw [aluFlagged_reg, if_neg hq.1, if_neg hq.2]

/-- The state in which a result reads its operands: after the flag is written under `SEQUENTIAL` (R80). -/
def resultReads (s : State) (flag : Byte) : State :=
  match s.params.readOrder with
  | .snapshot => s
  | .sequential => s.setReg VF flag

theorem resultReads_params (s : State) (flag : Byte) : (resultReads s flag).params = s.params := by
  unfold resultReads
  split <;> rfl

theorem toNat_resultReads_reg (s : State) (flag : Byte) (q : Reg) :
    ((resultReads s flag).reg q).toNat = operandAfterFlag s flag.toNat q := by
  unfold resultReads operandAfterFlag
  cases s.params.readOrder with
  | snapshot => simp
  | sequential => by_cases hq : q = VF <;> simp [reg_setReg, hq]

theorem aluFlagged_reg_dest (x : Reg) (rd : State → Byte × Byte) (f g : Byte → Byte → Byte) (s : State) :
    (aluFlagged x rd f g s).reg x =
      f (rd (resultReads s (g (rd s).1 (rd s).2))).1 (rd (resultReads s (g (rd s).1 (rd s).2))).2 := by
  rw [aluFlagged_reg, if_pos rfl, resultReads]
  cases s.params.readOrder <;> rfl

/-- A flag-setting instruction that reads the registers `p` and `q`: its destination holds the result of the operands
that the read order gives, and `VF` holds the flag of the operands before it, unless it is the destination (R80). -/
theorem aluFlagged_spec {x p q : Reg} {rd : State → Byte × Byte} {f g : Byte → Byte → Byte} {s : State} {flag : Nat}
    (hrd : ∀ u : State, u.params = s.params → rd u = (u.reg p, u.reg q))
    (hflag : (g (s.reg p) (s.reg q)).toNat = flag) :
    (∃ a b : Byte, a.toNat = operandAfterFlag s flag p ∧ b.toNat = operandAfterFlag s flag q ∧
      (aluFlagged x rd f g s).reg x = f a b) ∧
    (x ≠ VF → ((aluFlagged x rd f g s).reg VF).toNat = flag) ∧ OnlyRegs [x, VF] s (aluFlagged x rd f g s) := by
  have hbefore := hrd s rfl
  have hafter := hrd _ (resultReads_params s (g (s.reg p) (s.reg q)))
  refine ⟨⟨(resultReads s (g (s.reg p) (s.reg q))).reg p, (resultReads s (g (s.reg p) (s.reg q))).reg q, ?_, ?_, ?_⟩,
    fun hx => ?_, onlyRegs_aluFlagged x rd f g s⟩
  · rw [toNat_resultReads_reg, hflag]
  · rw [toNat_resultReads_reg, hflag]
  · rw [aluFlagged_reg_dest, hbefore, hafter]
  · rw [aluFlagged_reg, if_neg hx.symm, if_pos rfl, hbefore, hflag]

theorem aluOperands_eq (x y : Reg) (u : State) : aluOperands x y u = (u.reg x, u.reg y) := rfl

/-- The shift source depends on the parameters only. -/
theorem shiftOperands_eq (x y : Reg) {s u : State} (h : u.params = s.params) :
    shiftOperands x y u = (u.reg (shiftedRegister s x y), u.reg (shiftedRegister s x y)) := by
  have hsource : shiftSourceReg x y u = shiftedRegister s x y := by
    unfold shiftSourceReg shiftedRegister
    rw [h]
    cases s.params.shiftSource <;> rfl
  rw [shiftOperands, hsource]

theorem toNat_carryFlag (a b : Byte) : (carryFlag a b).toNat = if a.toNat + b.toNat > 255 then 1 else 0 := by
  simp [carryFlag]

theorem toNat_noBorrowFlag (a b : Byte) : (noBorrowFlag a b).toNat = if a.toNat ≥ b.toNat then 1 else 0 := by
  simp [noBorrowFlag]

theorem toNat_shiftedOutLow (a b : Byte) : (shiftedOutLow a b).toNat = a.toNat % 2 := by
  rw [shiftedOutLow, toNat_flagByte, BitVec.getLsbD, Nat.testBit_zero]
  split <;> simp_all

theorem toNat_shiftedOutHigh (a b : Byte) : (shiftedOutHigh a b).toNat = a.toNat / 128 := by
  rw [shiftedOutHigh, toNat_flagByte, BitVec.getLsbD, Nat.testBit_eq_decide_div_mod_eq]
  simp only [decide_eq_true_eq]
  split <;> omega

/-- Subtraction modulo 256 (R8). -/
theorem toNat_byteSub (a b : Byte) : (a - b).toNat = (a.toNat + 256 - b.toNat) % 256 := by
  rw [BitVec.toNat_sub]
  omega

/-- Settles O14: the result is a byte sum, the flag its carry. -/
theorem addRegistersSetsCarry : Obligations.AddRegistersSetsCarry := by
  intro x y s flag hflag
  obtain ⟨⟨a, b, ha, hb, hresult⟩, hvf, honly⟩ := aluFlagged_spec (x := x) (f := fun a b => a + b) (g := carryFlag)
    (fun u _ => aluOperands_eq x y u) ((toNat_carryFlag _ _).trans hflag.symm)
  exact ⟨_, rfl, by rw [hresult, ← ha, ← hb, BitVec.toNat_add], hvf, honly⟩

/-- Settles O15: the result is a byte difference, the flag says that it needs no borrow. -/
theorem subtractSetsNoBorrow : Obligations.SubtractSetsNoBorrow := by
  intro x y s flag hflag
  obtain ⟨⟨a, b, ha, hb, hresult⟩, hvf, honly⟩ := aluFlagged_spec (x := x) (f := fun a b => a - b) (g := noBorrowFlag)
    (fun u _ => aluOperands_eq x y u) ((toNat_noBorrowFlag _ _).trans hflag.symm)
  exact ⟨_, rfl, by rw [hresult, ← ha, ← hb, toNat_byteSub], hvf, honly⟩

/-- Settles O16: as O15, with the operands the other way round in both the result and the flag. -/
theorem subtractReverseSetsNoBorrow : Obligations.SubtractReverseSetsNoBorrow := by
  intro x y s flag hflag
  obtain ⟨⟨a, b, ha, hb, hresult⟩, hvf, honly⟩ := aluFlagged_spec (x := x) (f := fun a b => b - a)
    (g := noBorrowReverseFlag) (fun u _ => aluOperands_eq x y u) ((toNat_noBorrowFlag _ _).trans hflag.symm)
  exact ⟨_, rfl, by rw [hresult, ← ha, ← hb, toNat_byteSub], hvf, honly⟩

/-- Settles O17: the shift reads its one source twice, so the flag and the result are of the same register. -/
theorem shiftRightSetsBitShiftedOut : Obligations.ShiftRightSetsBitShiftedOut := by
  intro x y s flag hflag
  obtain ⟨⟨a, b, ha, -, hresult⟩, hvf, honly⟩ := aluFlagged_spec (x := x) (f := fun a _ => a >>> 1)
    (g := shiftedOutLow) (fun u => shiftOperands_eq x y (u := u)) ((toNat_shiftedOutLow _ _).trans hflag.symm)
  exact ⟨_, rfl, by rw [hresult, ← ha, BitVec.toNat_ushiftRight, Nat.shiftRight_one], hvf, honly⟩

/-- Settles O18: as O17, with the bit shifted out at the other end. -/
theorem shiftLeftSetsBitShiftedOut : Obligations.ShiftLeftSetsBitShiftedOut := by
  intro x y s flag hflag
  obtain ⟨⟨a, b, ha, -, hresult⟩, hvf, honly⟩ := aluFlagged_spec (x := x) (f := fun a _ => a <<< 1)
    (g := shiftedOutHigh) (fun u => shiftOperands_eq x y (u := u)) ((toNat_shiftedOutHigh _ _).trans hflag.symm)
  exact ⟨_, rfl, by rw [hresult, ← ha, BitVec.toNat_shiftLeft, Nat.shiftLeft_eq, pow_one], hvf, honly⟩

/-! ### The read orders -/

/-- Where no operand is the flag register, the result is that of the operands before the flag (R80). -/
theorem aluFlagged_of_not_reads_vf (x : Reg) {rd : State → Byte × Byte} (f g : Byte → Byte → Byte) {s : State}
    (hrd : ∀ b, rd (s.setReg VF b) = rd s) :
    aluFlagged x rd f g s = (s.setReg VF (g (rd s).1 (rd s).2)).setReg x (f (rd s).1 (rd s).2) := by
  unfold aluFlagged
  cases s.params.readOrder with
  | snapshot => rfl
  | sequential => simp only [hrd]

theorem aluOperands_setReg_vf {x y : Reg} (hx : x ≠ VF) (hy : y ≠ VF) (s : State) (b : Byte) :
    aluOperands x y (s.setReg VF b) = aluOperands x y s := by
  rw [aluOperands, reg_setReg_ne s VF x b hx, reg_setReg_ne s VF y b hy, aluOperands]

theorem shiftOperands_setReg_vf {x y : Reg} (hx : x ≠ VF) (hy : y ≠ VF) (s : State) (b : Byte) :
    shiftOperands x y (s.setReg VF b) = shiftOperands x y s := by
  have hsource : shiftedRegister s x y ≠ VF := by
    unfold shiftedRegister
    split
    · exact hx
    · exact hy
  rw [shiftOperands_eq x y (setReg_params s VF b), shiftOperands_eq x y (s := s) rfl, reg_setReg_ne s VF _ b hsource]

/-- Two runs under other parameters agree where the operands do not depend on what changed, nor on the flag. -/
theorem aluFlagged_agree (x : Reg) {rd : State → Byte × Byte} (f g : Byte → Byte → Byte) {s : State} {p q : Params}
    (hrd : ∀ (u : State) (b : Byte), rd (u.setReg VF b) = rd u) (hp : rd { s with params := p } = rd s)
    (hq : rd { s with params := q } = rd s) :
    ∃ t : State, (.next (aluFlagged x rd f g { s with params := p }) : Result) = .next { t with params := p } ∧
      (.next (aluFlagged x rd f g { s with params := q }) : Result) = .next { t with params := q } := by
  refine ⟨(s.setReg VF (g (rd s).1 (rd s).2)).setReg x (f (rd s).1 (rd s).2), ?_, ?_⟩
  · rw [aluFlagged_of_not_reads_vf x f g (hrd _), hp]
    rfl
  · rw [aluFlagged_of_not_reads_vf x f g (hrd _), hq]
    rfl

/-- Settles O20: away from `VF` the operands do not see the flag, so the read order, the one parameter in which the two
runs differ, does not enter. -/
theorem readOrdersAgreeAwayFromVf : Obligations.ReadOrdersAgreeAwayFromVf := by
  rintro x y i s p q hx hy hi rfl rfl
  simp only [List.mem_cons, List.not_mem_nil, or_false] at hi
  obtain rfl | rfl | rfl | rfl | rfl := hi
  · exact aluFlagged_agree x _ _ (aluOperands_setReg_vf hx hy) rfl rfl
  · exact aluFlagged_agree x _ _ (aluOperands_setReg_vf hx hy) rfl rfl
  · exact aluFlagged_agree x _ _ (shiftOperands_setReg_vf hx hy) rfl rfl
  · exact aluFlagged_agree x _ _ (aluOperands_setReg_vf hx hy) rfl rfl
  · exact aluFlagged_agree x _ _ (shiftOperands_setReg_vf hx hy) rfl rfl

end Sys2Proof.Proofs
end

section
/-! Control flow (42_control_flow.md): the skips, the jump with an offset, and the call and the return as a push and a
pop of the stack. -/

namespace Sys2Proof.Proofs

open Sys2Proof Sys2Proof.Machine Sys2Proof.Safety Sys2Proof.Laws

/-! ### Skips and the jump with an offset -/

theorem sameOutside_skipIf (s : State) (c : Bool) : SameOutside [.pc] s (s.skipIf c) := by
  simp [SameOutside]

theorem skipIf_pc_of_iff {s : State} {c : Bool} {p : Prop} [Decidable p] (h : c = true ↔ p) :
    (s.skipIf c).pc = if p then s.pc + 2 else s.pc := by
  rw [skipIf_pc]
  exact if_congr h rfl rfl

theorem skipIf_pc_of_iff_not {s : State} {c : Bool} {p : Prop} [Decidable p] (h : c = true ↔ ¬ p) :
    (s.skipIf c).pc = if p then s.pc else s.pc + 2 :=
  (skipIf_pc_of_iff h).trans (ite_not p _ _)

theorem byte_beq_iff (a b : Byte) : (a == b) = true ↔ a.toNat = b.toNat :=
  beq_iff_eq.trans BitVec.toNat_eq

theorem byte_bne_iff (a b : Byte) : (a != b) = true ↔ ¬ a.toNat = b.toNat :=
  bne_iff_ne.trans (not_congr BitVec.toNat_eq)

/-- Settles O27: the four conditions are equality of two bytes and its negation. -/
theorem skipsFollowTheirConditions : Obligations.SkipsFollowTheirConditions := fun _ _ _ s =>
  ⟨⟨_, rfl, skipIf_pc_of_iff (byte_beq_iff _ _), sameOutside_skipIf s _⟩,
    ⟨_, rfl, skipIf_pc_of_iff_not (byte_bne_iff _ _), sameOutside_skipIf s _⟩,
    ⟨_, rfl, skipIf_pc_of_iff (byte_beq_iff _ _), sameOutside_skipIf s _⟩,
    ⟨_, rfl, skipIf_pc_of_iff_not (byte_bne_iff _ _), sameOutside_skipIf s _⟩⟩

theorem jumpOffsetRegister_val (addr : Addr) (s : State) :
    (jumpOffsetRegister addr s).val = if s.params.jumpOffset = .v0 then 0 else addr.toNat / 256 := by
  unfold jumpOffsetRegister
  cases s.params.jumpOffset with
  | v0 => rfl
  | vx =>
    simp only [regOfNibble, BitVec.extractLsb'_toNat, Nat.shiftRight_eq_div_pow, reduceCtorEq, if_false]
    omega

/-- Settles O25: the offset register is the one named, and the sum fits into `PC`. -/
theorem jumpWithOffsetAddsUnmasked : Obligations.JumpWithOffsetAddsUnmasked := by
  intro addr x s hx
  obtain rfl : jumpOffsetRegister addr s = x := Fin.ext ((jumpOffsetRegister_val addr s).trans hx.symm)
  exact ⟨_, rfl, toNat_jumpOffsetTarget addr s, sameOutside_setPc s _⟩

/-! ### Call and return -/

theorem exec_ret_empty {s : State} (h : s.sp = 0) : exec .ret s = .next (warn .stackUnderflow .ret s) :=
  if_pos h

theorem exec_ret_pops {s : State} (h : 0 < s.sp) (hentry : s.sp - 1 < s.stack.length) :
    exec .ret s = .next { s with sp := s.sp - 1, pc := s.stack[s.sp - 1] } :=
  (if_neg (Nat.ne_of_gt h)).trans (popPc_inside s hentry)

theorem exec_call_full (addr : Addr) {s : State} (h : s.sp = s.params.stackCapacity) :
    exec (.call addr) s = .next ((warn .stackOverflow (.call addr) s).setPc (addr.setWidth 16)) :=
  if_pos h

/-- The state after a call that pushes. -/
def pushed (addr : Addr) (s : State) : State :=
  State.setPc { s with stack := s.stack.set s.sp s.pc, sp := s.sp + 1 } (addr.setWidth 16)

theorem exec_call_pushes (addr : Addr) {s : State} (hstack : StackOk s) (h : s.sp < s.params.stackCapacity) :
    exec (.call addr) s = .next (pushed addr s) :=
  (if_neg (Nat.ne_of_lt h)).trans (pushThen_inside s s.pc _ (hstack.1 ▸ h))

/-- Settles O23: below an empty stack there is nothing to pop, and with the stack whole the top entry is there. -/
theorem returnPopsOrUnderflows : Obligations.ReturnPopsOrUnderflows := by
  intro s hstack
  refine ⟨fun hempty => ?underflows, fun hdepth => ?pops⟩
  case underflows => exact ⟨_, exec_ret_empty hempty, onlyReports_warn .stackUnderflow .ret s⟩
  case pops =>
    have hentry : s.sp - 1 < s.stack.length := by omega
    refine ⟨_, exec_ret_pops hdepth hentry, List.getElem?_eq_getElem hentry, rfl, ?frame⟩
    case frame => simp [SameOutside, State.reg]

/-- Settles O26: with the stack whole there is room for the push exactly below the capacity, and the jump is made in
either case. -/
theorem callPushesOrOverflowsAndJumps : Obligations.CallPushesOrOverflowsAndJumps := by
  intro addr s op hstack hop
  obtain rfl : op = encode (.call addr) := eq_wordAddr_of_toNat hop
  refine ⟨fun hfull => ?overflows, fun hroom => ?pushes⟩
  case overflows =>
    refine ⟨_, exec_call_full addr hfull, toNat_jumpTarget addr, rfl, ?frame⟩
    case frame => simp [SameOutside]
  case pushes =>
    have htop : (pushed addr s).stack[s.sp]? = some s.pc := List.getElem?_set_self (hstack.1 ▸ hroom)
    refine ⟨_, exec_call_pushes addr hstack hroom, toNat_jumpTarget addr, htop,
      fun k hk => List.getElem?_set_ne (Ne.symm hk), rfl, ?frame⟩
    case frame => simp [SameOutside, pushed, State.reg]

/-- Settles O28: the entry that the call pushed is the one that a return on the same stack pops. -/
theorem returnComesBackToItsCall : Obligations.ReturnComesBackToItsCall := by
  intro addr s t u hstack hroom hcall hentries hdepth
  obtain rfl := next_inj.mp ((exec_call_pushes addr hstack hroom).symm.trans hcall)
  have hsp : u.sp - 1 = s.sp := by rw [hdepth]; rfl
  have hentry : u.sp - 1 < u.stack.length := by
    rw [hsp, hentries]
    exact (List.length_set (as := s.stack)).symm ▸ hstack.1 ▸ hroom
  refine ⟨_, exec_ret_pops (hdepth ▸ Nat.succ_pos s.sp) hentry, ?pc, hsp⟩
  case pc =>
    simp only [hsp, hentries]
    exact List.getElem_set_self _

end Sys2Proof.Proofs
end

section
/-! The index, the keys and the host's own writes (44_timers_input_memory.md, 00_scope.md R4). -/

namespace Sys2Proof.Proofs

open Sys2Proof Sys2Proof.Machine Sys2Proof.Safety Sys2Proof.Laws

/-! ### Index and timers -/

theorem sameOutside_setI (s : State) (a : Word) : SameOutside [.i] s (s.setI a) := by
  simp [SameOutside]

/-- Settles O32: it is one write, to `I`. -/
theorem loadIndexSetsI : Obligations.LoadIndexSetsI := fun addr s =>
  ⟨_, rfl, toNat_jumpTarget addr, sameOutside_setI s _⟩

theorem buzzer_iff (s : State) : buzzer s = true ↔ s.st ≠ 0#8 := by
  simp [buzzer, Nat.pos_iff_ne_zero, BitVec.toNat_eq]

/-- Settles O34: each is one write, and the buzzer is on where the sound timer is not 0. -/
theorem timerMovesCopyOneByte : Obligations.TimerMovesCopyOneByte := by
  refine fun x s => ⟨⟨_, rfl, reg_setReg_self s x s.dt, onlyRegs_setReg s x s.dt⟩, ⟨_, rfl, rfl, ?dt⟩,
    ⟨_, rfl, rfl, buzzer_iff _, ?st⟩⟩
  case dt => simp [SameOutside, State.reg]
  case st => simp [SameOutside, State.reg]

/-- Settles O36: the sum is masked where it leaves 12 bits, and the flag is written as the two parameters say. -/
theorem addToIndexMasksAndFlags : Obligations.AddToIndexMasksAndFlags := by
  rintro x s sum rfl
  refine ⟨_, exec_addI x s, ?index, ?flag, fun r hr => ?others, ?frame⟩
  case index => rw [indexOverflowFlag_i, setI_i, toNat_maskedIndex, maskedIndex, indexSum]
  case flag =>
    rw [indexOverflowFlag_reg, setI_params, setI_reg, indexSum]
    cases s.params.overflowFlag <;> cases s.params.noOverflowVf <;> simp
  case others => rw [indexOverflowFlag_reg, if_neg (fun h => hr h.1), setI_reg]
  case frame => simp [SameOutside]

/-- Settles O37: the check on the digit decides between the write of `I` and the report. -/
theorem glyphAddressOrInvalidDigit : Obligations.GlyphAddressOrInvalidDigit := by
  intro x s op hop
  obtain rfl : op = encode (.ldF x) := eq_wordXKK_of_toNat (hop.trans (by simp; omega))
  refine ⟨fun hdigit => ?glyph, fun hdigit => ?invalid⟩
  case glyph => exact ⟨_, if_neg (Nat.not_lt.mpr hdigit), toNat_glyphAddress _, sameOutside_setI s _⟩
  case invalid => exact ⟨_, if_pos hdigit, onlyReports_warn .invalidDigitIndex (.ldF x) s⟩

/-! ### Keys -/

theorem sameOutside_keySkip (x : Reg) (i : Instr) (s : State) (c : Bool) :
    SameOutside [.pc, .out] s ((warnKeyIndex x i s).skipIf c) := by
  simp [SameOutside]

/-- Settles O33: both skips test the key that the reduction names, one its bit and one the negation, and the warning
writes the outcome only. -/
theorem keySkipsTestKeyModSixteen : Obligations.KeySkipsTestKeyModSixteen := by
  rintro x s down rfl
  refine ⟨⟨_, rfl, ?pressed, ?out, sameOutside_keySkip x _ s _⟩, ⟨_, rfl, ?released, ?out', sameOutside_keySkip x _ s _⟩⟩
  case pressed => rw [skipIf_pc, warnKeyIndex_pc]; rfl
  case out => rw [skipIf_out, warnKeyIndex_out]
  case released =>
    rw [skipIf_pc, warnKeyIndex_pc]
    exact (if_congr (by rw [Bool.not_eq_true', Bool.not_eq_true]; rfl) rfl rfl).trans (ite_not _ _ _)
  case out' => rw [skipIf_out, warnKeyIndex_out]

/-! ### The host -/

/-- Settles O48: each is one write. -/
theorem setKeysAndForcePcSetOneRegister : Obligations.SetKeysAndForcePcSetOneRegister := by
  refine fun k a s => ⟨⟨_, rfl, rfl, ?keys⟩, ⟨_, rfl, rfl, ?pc⟩⟩
  case keys => simp [SameOutside]
  case pc => simp [SameOutside]

end Sys2Proof.Proofs
end

section
/-! The transfers between registers and memory (44_timers_input_memory.md R131, R141 to R143), and what they leave for a
later load and a later fetch (20_memory.md R55). -/

namespace Sys2Proof.Proofs

open Sys2Proof Sys2Proof.Machine Sys2Proof.Safety Sys2Proof.Laws

/-! ### Stores -/

/-- The `k`-th byte stored is read at the `k`-th address from the base on. -/
theorem byteAt_writeBytes_inside {m : Memory} (hwf : Memory.wf m = true) {base k : Nat} {bs : List Byte}
    (hin : base + bs.length ≤ memorySize) (hk : k < bs.length) :
    byteAt (writeBytes m base bs) (base + k) = bs.getD k 0 := by
  rw [byteAt_writeBytes hwf base bs (base + k) hin, if_pos (by omega), Nat.add_sub_cancel_left]

theorem sameOutside_mem (s : State) (m : Memory) : SameOutside [.mem] s { s with mem := m } := by
  simp [SameOutside, State.reg]

theorem sameOutside_warn_mem (k : DiagKind) (i : Instr) (s : State) (m : Memory) :
    SameOutside [.mem, .out] s { warn k i s with mem := m } := by
  simp [SameOutside, State.reg]

/-! ### The decimal digits -/

theorem exec_ldB_inside {x : Reg} {s : State} (h : writeOK s.i.toNat 3) :
    exec (.ldB x) s = .next { s with mem := writeBytes s.mem s.i.toNat (bcdDigits (s.reg x)) } :=
  (if_pos h).trans (storeBytes_inside s _ _ h.2)

/-- Settles O38: the range check decides between a store of the three digits and the report. -/
theorem bcdStoresThreeDigits : Obligations.BcdStoresThreeDigits := by
  intro x s op hwf hop
  obtain rfl : op = encode (.ldB x) := eq_wordXKK_of_toNat (hop.trans (by simp; omega))
  refine ⟨fun hrange => ?stores, fun hrange => ?reports⟩
  case stores =>
    have hok : writeOK s.i.toNat 3 := ⟨hrange.1, by unfold memorySize; omega⟩
    have hdigit {k} (hk : k < 3) := byteAt_writeBytes_inside hwf (bs := bcdDigits (s.reg x)) hok.2 hk
    refine ⟨_, exec_ldB_inside hok, ?_, ?_, ?_, fun a ha => byteAt_writeBytes_outside _ _ _ _ ha, sameOutside_mem s _⟩
    · exact (congrArg BitVec.toNat (hdigit (k := 0) (by decide))).trans (by simp [bcdDigits])
    · exact (congrArg BitVec.toNat (hdigit (k := 1) (by decide))).trans (by simp [bcdDigits])
    · exact (congrArg BitVec.toNat (hdigit (k := 2) (by decide))).trans (by simp [bcdDigits])
  case reports =>
    have hnot : ¬ writeOK s.i.toNat 3 := by
      unfold writeOK programBase memorySize
      omega
    exact ⟨_, if_neg hnot, onlyReports_warn .bcdOutOfBounds (.ldB x) s⟩

/-! ### The range policy -/

section Policy

variable {i : Instr} {x : Reg} {go : State → Result} {s : State}

theorem transferByPolicy_reject (hpolicy : s.params.transfer = .reject) :
    transferByPolicy false i x go s = .next (warn .registerTransferOutOfBounds i s) := by
  simp [transferByPolicy, hpolicy]

theorem transferByPolicy_warn_inside (hpolicy : s.params.transfer = .warn) (hin : readOK s.i.toNat (x.val + 1)) :
    transferByPolicy false i x go s = go (warn .registerTransferOutOfBounds i s) := by
  simp [transferByPolicy, hpolicy, hin]

theorem transferByPolicy_warn_beyond (hpolicy : s.params.transfer = .warn) (hbeyond : ¬ readOK s.i.toNat (x.val + 1)) :
    transferByPolicy false i x go s = .refused .transferBeyondMemory := by
  simp [transferByPolicy, hpolicy, hbeyond]

end Policy

theorem execStRegs_of_not_writeOK {x : Reg} {s : State} (h : s.i.toNat < 0x200 ∨ 0xFFF < s.i.toNat + x.val) :
    exec (.stRegs x) s = transferByPolicy false (.stRegs x) x (saveRegs x) s := by
  have hnot : ¬ writeOK s.i.toNat (x.val + 1) := by
    unfold writeOK programBase memorySize
    omega
  rw [exec, execStRegs, decide_eq_false hnot]

theorem not_readOK_iff (base : Nat) (x : Reg) : ¬ readOK base (x.val + 1) ↔ 0xFFF < base + x.val := by
  unfold readOK memorySize
  omega

theorem execLdRegs_of_not_readOK {x : Reg} {s : State} (h : ¬ readOK s.i.toNat (x.val + 1)) :
    exec (.ldRegs x) s = transferByPolicy false (.ldRegs x) x (loadRegs x) s := by
  rw [exec, execLdRegs, decide_eq_false h]

/-- Settles O41: under `REJECT` a failed check leaves the report alone. -/
theorem rejectedTransferOnlyReports : Obligations.RejectedTransferOnlyReports := by
  refine fun x s hpolicy => ⟨fun hrange => ?store, fun hbeyond => ?load⟩
  case store =>
    exact ⟨_, (execStRegs_of_not_writeOK hrange).trans (transferByPolicy_reject hpolicy), onlyReports_warn _ _ s⟩
  case load =>
    exact ⟨_, (execLdRegs_of_not_readOK ((not_readOK_iff _ x).mpr hbeyond)).trans (transferByPolicy_reject hpolicy),
      onlyReports_warn _ _ s⟩

/-! ### Registers to memory -/

/-- Memory after `V0` to `Vx` are stored at `I` (R142). -/
def savedMemory (x : Reg) (s : State) : Memory := writeBytes s.mem s.i.toNat (regsUpTo x s)

section Saved

variable {x : Reg} {s : State}

theorem length_regsUpTo_inside (hin : s.i.toNat + x.val ≤ 0xFFF) :
    s.i.toNat + (regsUpTo x s).length ≤ memorySize := by
  rw [length_regsUpTo, memorySize]
  omega

theorem byteAt_savedMemory (hwf : Memory.wf s.mem = true) (hin : s.i.toNat + x.val ≤ 0xFFF) {r : Reg} (hr : r ≤ x) :
    byteAt (savedMemory x s) (s.i.toNat + r.val) = s.reg r := by
  have hlt : r.val < (regsUpTo x s).length := by
    rw [length_regsUpTo]
    exact Nat.lt_succ_of_le hr
  rw [savedMemory, byteAt_writeBytes_inside hwf (length_regsUpTo_inside hin) hlt, getD_regsUpTo x r s hr]

theorem byteAt_savedMemory_outside {a : Nat} (ha : a < s.i.toNat ∨ s.i.toNat + x.val < a) :
    byteAt (savedMemory x s) a = byteAt s.mem a :=
  byteAt_writeBytes_outside _ _ _ _ (ha.imp_right fun h => by rw [length_regsUpTo]; omega)

theorem exec_stRegs_inside (hlow : 0x200 ≤ s.i.toNat) (hin : s.i.toNat + x.val ≤ 0xFFF) :
    exec (.stRegs x) s = .next { s with mem := savedMemory x s } := by
  have hok : writeOK s.i.toNat (x.val + 1) := ⟨hlow, by unfold memorySize; omega⟩
  exact (if_pos (decide_eq_true hok)).trans (storeBytes_inside s _ _ (length_regsUpTo_inside hin))

theorem exec_stRegs_warned (hpolicy : s.params.transfer = .warn) (hlow : s.i.toNat < 0x200)
    (hin : s.i.toNat + x.val ≤ 0xFFF) : exec (.stRegs x) s =
      .next { warn .registerTransferOutOfBounds (.stRegs x) s with mem := savedMemory x s } := by
  have hread : readOK s.i.toNat (x.val + 1) := by
    unfold readOK memorySize
    omega
  rw [execStRegs_of_not_writeOK (.inl hlow), transferByPolicy_warn_inside hpolicy hread]
  exact storeBytes_inside (warn _ _ s) _ _ (length_regsUpTo_inside hin)

end Saved

/-- Settles O39: with the range check passed it is a store of the registers in order. -/
theorem storeRegistersWritesTheirBytes : Obligations.StoreRegistersWritesTheirBytes := fun _ s hwf hlow hin =>
  ⟨_, exec_stRegs_inside hlow hin, fun _ => byteAt_savedMemory hwf hin, fun _ => byteAt_savedMemory_outside,
    sameOutside_mem s _⟩

/-- Settles O42: under `WARN` a failed check is reported and the store still made, unless it would leave memory. -/
theorem warnedTransferStoresOrIsRefused : Obligations.WarnedTransferStoresOrIsRefused := by
  refine fun x s hwf hpolicy => ⟨fun hlow hin => ?stores, fun hbeyond => ?refused⟩
  case stores =>
    exact ⟨_, exec_stRegs_warned hpolicy hlow hin, fun _ => byteAt_savedMemory hwf hin,
      fun _ => byteAt_savedMemory_outside, rfl, sameOutside_warn_mem _ _ s _⟩
  case refused =>
    have hnot := (not_readOK_iff s.i.toNat x).mpr hbeyond
    exact ⟨(execStRegs_of_not_writeOK (.inr hbeyond)).trans (transferByPolicy_warn_beyond hpolicy hnot),
      (execLdRegs_of_not_readOK hnot).trans (transferByPolicy_warn_beyond hpolicy hnot)⟩

/-! ### Memory to registers -/

/-- The state after `V0` to `Vx` are loaded from `I` (R143). -/
def loaded (x : Reg) (s : State) : State :=
  { s with v := loadedRegs s.v (bytesFrom s.mem s.i.toNat (x.val + 1)) }

theorem exec_ldRegs_inside {x : Reg} {s : State} (hin : s.i.toNat + x.val ≤ 0xFFF) :
    exec (.ldRegs x) s = .next (loaded x s) := by
  have hok : readOK s.i.toNat (x.val + 1) := by
    unfold readOK memorySize
    omega
  exact (if_pos (decide_eq_true hok)).trans (withBytes_inside s _ _ _ hok)

theorem loaded_reg (x : Reg) (s : State) (r : Reg) :
    (loaded x s).reg r = if r ≤ x then byteAt s.mem (s.i.toNat + r.val) else s.reg r := by
  have hget : (loaded x s).reg r = (bytesFrom s.mem s.i.toNat (x.val + 1)).getD r.val (s.reg r) :=
    getElem_loadedRegs s.v _ r
  rw [hget, getD_bytesFrom]
  exact if_congr Nat.lt_succ_iff rfl rfl

theorem loaded_reg_of_le {x r : Reg} (s : State) (hr : r ≤ x) :
    (loaded x s).reg r = byteAt s.mem (s.i.toNat + r.val) :=
  (loaded_reg x s r).trans (if_pos hr)

theorem loaded_reg_of_lt {x r : Reg} (s : State) (hr : x < r) : (loaded x s).reg r = s.reg r :=
  (loaded_reg x s r).trans (if_neg (not_le.mpr hr))

theorem sameOutside_loaded (x : Reg) (s : State) : SameOutside [.v] s (loaded x s) := by
  simp [SameOutside, loaded]

/-- Settles O40: with the range check passed it is a write of the registers that the bytes reach. -/
theorem loadRegistersReadsTheirBytes : Obligations.LoadRegistersReadsTheirBytes := fun x s hin =>
  ⟨loaded x s, exec_ldRegs_inside hin, fun _ => loaded_reg_of_le s, fun _ => loaded_reg_of_lt s, sameOutside_loaded x s⟩

/-! ### After a store -/

/-- Settles O43: the load reads the addresses that the store wrote. -/
theorem loadedRegistersAreTheStoredOnes : Obligations.LoadedRegistersAreTheStoredOnes := by
  intro x z s t u hwf hlow hin hz hstore hmem hi
  obtain rfl := next_inj.mp ((exec_stRegs_inside hlow hin).symm.trans hstore)
  have hin' : u.i.toNat + z.val ≤ 0xFFF := by
    have hle : z.val ≤ x.val := hz
    rw [hi]
    omega
  refine ⟨loaded z u, exec_ldRegs_inside hin', fun r hr => ?_, fun r => loaded_reg_of_lt u⟩
  rw [loaded_reg_of_le u hr, hmem, hi]
  exact byteAt_savedMemory hwf hin (hr.trans hz)

/-- Settles O44: the two bytes that the step fetches are those of the two registers. -/
theorem storedBytesAreFetched : Obligations.StoredBytesAreFetched := by
  intro x j k s t u i hwf hlow hin hjk hk hstore hmem hpc hdecode
  obtain rfl := next_inj.mp ((exec_stRegs_inside hlow hin).symm.trans hstore)
  have hkx : k.val ≤ x.val := hk
  have hj : j ≤ x := Fin.le_def.mpr (by omega)
  have hbytes : fetchedBytes u = [s.reg j, s.reg k] := by
    rw [fetchedBytes, hmem, hpc, Nat.add_assoc, ← hjk, byteAt_savedMemory hwf hin hj, byteAt_savedMemory hwf hin hk]
  have hfetch : Fetches u i := ⟨by omega, by omega, hbytes ▸ hdecode⟩
  exact step_of_fetches hfetch

end Sys2Proof.Proofs
end

section
/-! Memory as the host writes it: the ROM image and the reset (70_reset_and_hazards.md R170, R171). -/

namespace Sys2Proof.Proofs

open Sys2Proof Sys2Proof.Machine Sys2Proof.Safety Sys2Proof.Laws

theorem length_take_romLimit (rom : List Byte) : (rom.take romLimit).length = min rom.length 0xE00 := by
  rw [List.length_take, Nat.min_comm, romLimit]

/-- Settles O49: the image cut to its limit ends inside memory, so the load is one store in range. -/
theorem loadCopiesTheRom : Obligations.LoadCopiesTheRom := by
  intro rom s hwf
  have hlength := length_take_romLimit rom
  have hin : programBase + (rom.take romLimit).length ≤ memorySize := by
    rw [hlength, programBase, memorySize]
    omega
  refine ⟨_, rfl, fun a hlow hhigh => ?copied, fun a ha => ?kept, sameOutside_mem s _⟩
  case copied =>
    have hk : a - 0x200 < (rom.take romLimit).length := by omega
    have hbyte := byteAt_writeBytes_inside hwf hin hk
    rw [programBase, Nat.add_sub_cancel' hlow] at hbyte
    rw [load_mem, programBase, hbyte, List.getD_eq_getElem _ _ hk, List.getElem_take]
    exact List.getElem?_eq_getElem _
  case kept => exact byteAt_writeBytes_outside _ _ _ _ (hlength ▸ ha)

/-- A byte outside the font is 0 in a memory with nothing written (R42). -/
theorem resetByte_outside_font {a : Nat} (ha : a < 0x100 ∨ 0x150 ≤ a) : resetByte a = 0#8 := by
  unfold resetByte
  split
  · next hbase =>
    have hlength : hardwareFont.toList.length = 80 := Vector.length_toList
    rw [fontBase] at hbase
    rw [List.getD_eq_getElem?_getD, List.getElem?_eq_none (by rw [hlength, fontBase]; omega)]
    rfl
  · rfl

theorem byteAt_resetMemory_font (font : Vector Byte 80) (k : Nat) (hk : k < 80) :
    byteAt (resetMemory font) (0x100 + k) = font[k] := by
  have hlength : font.toList.length = 80 := Vector.length_toList
  have hk' : k < font.toList.length := hlength.symm ▸ hk
  have hin : fontBase + font.toList.length ≤ memorySize := by
    rw [hlength]
    decide
  have hbyte := byteAt_writeBytes_inside (m := []) rfl hin hk'
  exact hbyte.trans ((List.getD_eq_getElem _ _ hk').trans (Vector.getElem_toList _))

theorem byteAt_resetMemory_outside (font : Vector Byte 80) {a : Nat} (ha : a < 0x100 ∨ 0x150 ≤ a) :
    byteAt (resetMemory font) a = 0#8 := by
  have hlength : font.toList.length = 80 := Vector.length_toList
  have houtside : a < fontBase ∨ fontBase + font.toList.length ≤ a := by rwa [hlength]
  exact (byteAt_writeBytes_outside [] _ _ _ houtside).trans (resetByte_outside_font ha)

/-- Settles O50: all but memory is written out, and memory is the font over nothing. -/
theorem resetBuildsThePowerOnState : Obligations.ResetBuildsThePowerOnState := fun s =>
  ⟨resetOp s, rfl, fun r => Vector.getElem_replicate r.isLt, rfl, rfl, rfl, List.length_replicate,
    fun _ ha => List.eq_of_mem_replicate ha, rfl, rfl, rfl, rfl, fun _ h => Vector.getElem_replicate h,
    byteAt_resetMemory_font s.params.font, fun _ => byteAt_resetMemory_outside s.params.font, rfl⟩

end Sys2Proof.Proofs
end
